-- ==== Sys2Proof/Word.lean ====
section
/-! DEFINITION. The words and values the block moves: nibbles, patterns, request words, wire frames, lines and directions,
digit values. -/

namespace Sys2Proof

/-- A 4-bit data unit, the width of one controller memory cell (R6, R29). -/
abbrev Nibble := BitVec 4

/-- A segment pattern: bit 7 decimal point, bits 6..0 segments G..A (R67). -/
abbrev Pattern := BitVec 8

/-- The host request word REQ[47:0] (R70). -/
abbrev ReqWord := BitVec 48

/-- A bias/commons setting BC0..BC5 (R66). -/
abbrev BiasCom := Fin 6

/-- The three signal lines (R1, R151). -/
inductive Line where
  | cs
  | wr
  | data
deriving DecidableEq, Repr

/-- `DIR[L]`, the direction of a line (R21). -/
inductive Direction where
  | unconfigured
  | output
deriving DecidableEq, Repr, Inhabited

/-- One value for each of the three lines. -/
structure LineMap (α : Type) where
  cs : α
  wr : α
  data : α
deriving DecidableEq, Repr, Inhabited

/-- One complete transmission, as the receiver decodes it: `Cmd(c)` or `Write(a, d)` (R31, R60). -/
inductive Frame where
  | cmd (c : BitVec 8)
  | write (a : BitVec 6) (d : Nibble)
deriving DecidableEq, Repr

/-- The eleven named system commands (R65). -/
inductive SysCommand where
  | sysDis
  | sysEn
  | lcdOff
  | lcdOn
  | osc
  | biasCom (k : BiasCom)
deriving DecidableEq, Repr

/-- A digit value, tagged (R69): numeric 0..9 and hex A..F, or one of the two sentinels. -/
inductive DigitValue where
  | digit (n : BitVec 4)
  | blank
  | minus
deriving DecidableEq, Repr

/-- The coded form of one operation: a request word at the host's port (R70), or the bit string of a wire frame in
transmission order, first bit sent first (R61, R62), for the internal framing operations (log 11). -/
inductive PortWord where
  | request (w : ReqWord)
  | frame (bits : List Bool)
deriving DecidableEq, Repr

/-- The working temporaries of the pseudocode, with the widths of R26. -/
structure Temps where
  neg : Bool
  mag : BitVec 32
  dig : Vector (BitVec 4) 6
  n : BitVec 3
  pos : BitVec 4
  dec : BitVec 2
  pat : Pattern
  addr : BitVec 6
deriving DecidableEq, Repr, Inhabited

end Sys2Proof
end

