-- ==== Sys2Proof/Config.lean ====
section
/-! DEFINITION. The implementation parameters of R4: the source's fixed numbers, and the OPEN parameters and unspecified
reset values as constants with no body (no proof can see what they are). -/

namespace Sys2Proof

/-- The place of a named command in the list of the eleven codes. -/
def SysCommand.index : SysCommand → BitVec 8
  | .sysDis => 0
  | .sysEn => 1
  | .lcdOff => 2
  | .lcdOn => 3
  | .osc => 4
  | .biasCom k => BitVec.ofNat 8 (5 + k.val)

namespace Config

/-- `MAX_DIGITS`: physical digit positions (R4). -/
def maxDigits : Nat := 6

/-- `MEM_CELLS`: controller memory cells (R4). -/
def memCells : Nat := 32

/-- `T_US`: the delay quantum in microseconds (R4, R80). -/
def tUs : Nat := 2

/-- `T_POWERUP_MS`: the power-up wait of init in milliseconds (R4, R171, conflict C6). -/
def tPowerupMs : Nat := 100

/-- The OPEN command codes (R65, D6). The spec assumes only that the eleven 8-bit codes are pairwise distinct; every such
choice is the start of some rearrangement of the 256 bytes, so an unknown rearrangement says exactly that (log 1). -/
opaque codePerm : Equiv.Perm (BitVec 8)

/-- The 8-bit code of a named command: `CMD_SYS_DIS`, …, `CMD_BIAS_COM[k]` (R65). -/
def cmdCode (n : SysCommand) : BitVec 8 := codePerm n.index

/-- `DEFAULT_BIAS_COM`, OPEN in 0..5 (R66, R94, D7; log 2). -/
opaque defaultBiasCom : BiasCom

/-- `TEST_STEP_MS`, OPEN (R129, D28; log 3). -/
opaque testStepMs : Nat

/-- `SCALE1000`, OPEN (R125, D23): from the 31 magnitude bits of a finite binary32 datum to the scaled integer, held in
MAG's 32 bits (R26). Assumed only to depend on its argument (log 4). -/
opaque scale1000 : BitVec 31 → BitVec 32

/-- CFG at reset, unspecified (R34; log 5). -/
opaque resetCfg : BiasCom

/-- DIR of the three lines at reset: R34's table writes `unconfigured`, R160, D1 and U6 ask that it be left unconstrained
(log 24). -/
opaque resetDir : LineMap Direction

/-- LVL of the three lines at reset, unspecified (R34; log 5). -/
opaque resetLvl : LineMap Bool

/-- C_SYS at reset, unspecified (R34; log 5). -/
opaque resetCSys : Bool

/-- C_LCD at reset, unspecified (R34; log 5). -/
opaque resetCLcd : Bool

/-- C_OSC at reset, unspecified (R34; log 5). -/
opaque resetCOsc : Bool

/-- C_BIAS at reset, `unset` (unspecified) in R34, to be left unconstrained (R160, U6; log 23). -/
opaque resetCBias : Option BiasCom

/-- The working temporaries at reset: the spec gives none (R26, R34; log 6). -/
opaque resetTemps : Temps

end Config

end Sys2Proof
end

