-- ==== Sys2Proof/Syntax.lean ====
section
/-! DEFINITION. The operations: one constructor per row of the opcode table. -/

namespace Sys2Proof

/-- One operation of the block: the nine host requests (R71), the two framing operations (R90, R91) and the eleven named
commands (R92). Operand fields have the widths of R72. -/
inductive Instr where
  /-- INIT (R94). -/
  | init
  /-- INIT_CFG `k` (R93); `k` 6 and 7 are illegal (R73). -/
  | initCfg (k : BitVec 3)
  /-- CLEAR (R95). -/
  | clear
  /-- WRITE_RAW `addr, nibble` (R96). -/
  | writeRaw (addr : BitVec 5) (nibble : Nibble)
  /-- DISPLAY_DIGIT `position, digit_value, decimal_point` (R113). -/
  | displayDigit (position : BitVec 8) (digitValue : BitVec 8) (decimalPoint : Bool)
  /-- DISPLAY_NUMBER `value, leading_zeros` (R121). -/
  | displayNumber (value : BitVec 32) (leadingZeros : Bool)
  /-- DISPLAY_FLOAT `value, decimals` (R124). -/
  | displayFloat (value : BitVec 32) (decimals : BitVec 8)
  /-- DISPLAY_HEX `value` (R128). -/
  | displayHex (value : BitVec 24)
  /-- TEST_PATTERN (R129). -/
  | testPattern
  /-- send_command `c`, the generic command frame (R90). -/
  | sendCommand (c : BitVec 8)
  /-- write_memory `a, d`, the memory-write frame (R91). -/
  | writeMemory (a : BitVec 6) (d : Nibble)
  /-- send_command CMD_SYS_DIS, system-disable (R92). -/
  | sendCommandSysDis
  /-- send_command CMD_SYS_EN, system-enable (R92). -/
  | sendCommandSysEn
  /-- send_command CMD_LCD_OFF, LCD-off (R92). -/
  | sendCommandLcdOff
  /-- send_command CMD_LCD_ON, LCD-on (R92). -/
  | sendCommandLcdOn
  /-- send_command CMD_OSC, oscillator-select (R92). -/
  | sendCommandOsc
  /-- send_command CMD_BIAS_COM[0] (R92). -/
  | sendCommandBiasCom0
  /-- send_command CMD_BIAS_COM[1] (R92). -/
  | sendCommandBiasCom1
  /-- send_command CMD_BIAS_COM[2] (R92). -/
  | sendCommandBiasCom2
  /-- send_command CMD_BIAS_COM[3] (R92). -/
  | sendCommandBiasCom3
  /-- send_command CMD_BIAS_COM[4] (R92). -/
  | sendCommandBiasCom4
  /-- send_command CMD_BIAS_COM[5] (R92). -/
  | sendCommandBiasCom5
deriving DecidableEq, Repr

end Sys2Proof
end

