-- ==== Sys2Proof/WellFormed.lean ====
section
/-! DEFINITION. Well-formed operations: the legal operand values, and the one spelling of each command frame. -/

namespace Sys2Proof

/-- `c` is the code of one of the eleven named commands (R65). -/
def IsNamedCode (c : BitVec 8) : Prop := ∃ n : SysCommand, Config.cmdCode n = c

/-- An operation as the encoding admits it: INIT_CFG takes 0..5 (R66, R73); a command frame that carries a named code is
spelt by its name, so that each word stands for one operation (R92; log 12). -/
def Instr.WellFormed : Instr → Prop
  | .initCfg k => k.toNat < 6
  | .sendCommand c => ¬ IsNamedCode c
  | .init | .clear | .writeRaw _ _ | .displayDigit _ _ _ | .displayNumber _ _ | .displayFloat _ _ | .displayHex _
  | .testPattern | .writeMemory _ _ | .sendCommandSysDis | .sendCommandSysEn | .sendCommandLcdOff
  | .sendCommandLcdOn | .sendCommandOsc | .sendCommandBiasCom0 | .sendCommandBiasCom1 | .sendCommandBiasCom2
  | .sendCommandBiasCom3 | .sendCommandBiasCom4 | .sendCommandBiasCom5 => True

end Sys2Proof
end

