-- ==== Sys2Proof/Decode.lean ====
section
/-! DEFINITION. Decoding of request words and wire frames, total and rejecting by name; then the encoder. -/

namespace Sys2Proof

/-! ### Bit strings in transmission order (R43, R82) -/

/-- The low `n` bits of `v`, most significant first. -/
def bitsMsbFirst (v : Nat) : Nat → List Bool
  | 0 => []
  | n + 1 => v.testBit n :: bitsMsbFirst v n

/-- The number a bit string stands for, its first bit the most significant. -/
def natOfBits (bits : List Bool) : Nat := bits.foldl (fun acc b => 2 * acc + b.toNat) 0

/-- The prefix `100` of a command frame (R61). -/
def prefixCmd : Nat := 0b100

/-- The prefix `101` of a memory-write frame (R62). -/
def prefixWrite : Nat := 0b101

/-- The frame a complete bit string is, by length and prefix; nothing else is a frame (R54, R55, R64). -/
def frameOfBits (bits : List Bool) : Option Frame :=
  if bits.length = 11 ∧ natOfBits (bits.take 3) = prefixCmd then
    some (.cmd (BitVec.ofNat 8 (natOfBits (bits.drop 3))))
  else if bits.length = 13 ∧ natOfBits (bits.take 3) = prefixWrite then
    some (.write (BitVec.ofNat 6 (natOfBits ((bits.drop 3).take 6))) (BitVec.ofNat 4 (natOfBits (bits.drop 9))))
  else none

/-- The bit string of a frame (R61, R62). -/
def bitsOfFrame : Frame → List Bool
  | .cmd c => bitsMsbFirst prefixCmd 3 ++ bitsMsbFirst c.toNat 8
  | .write a d => bitsMsbFirst prefixWrite 3 ++ bitsMsbFirst a.toNat 6 ++ bitsMsbFirst d.toNat 4

/-! ### Named command codes (R65) -/

/-- The named command at a place of the list of codes. -/
def commandAt (i : BitVec 8) : Option SysCommand :=
  if i = 0 then some .sysDis
  else if i = 1 then some .sysEn
  else if i = 2 then some .lcdOff
  else if i = 3 then some .lcdOn
  else if i = 4 then some .osc
  else if h : 5 ≤ i.toNat ∧ i.toNat < 11 then some (.biasCom ⟨i.toNat - 5, by omega⟩)
  else none

/-- The named command whose code `c` is, if any: `commandOf c = some n` just when `c = cmdCode n` (R30). -/
def commandOf (c : BitVec 8) : Option SysCommand := commandAt (Config.codePerm.symm c)

/-- The operation that sends a named command (R92). -/
def instrOfCommand : SysCommand → Instr
  | .sysDis => .sendCommandSysDis
  | .sysEn => .sendCommandSysEn
  | .lcdOff => .sendCommandLcdOff
  | .lcdOn => .sendCommandLcdOn
  | .osc => .sendCommandOsc
  | .biasCom 0 => .sendCommandBiasCom0
  | .biasCom 1 => .sendCommandBiasCom1
  | .biasCom 2 => .sendCommandBiasCom2
  | .biasCom 3 => .sendCommandBiasCom3
  | .biasCom 4 => .sendCommandBiasCom4
  | .biasCom 5 => .sendCommandBiasCom5

/-! ### The decoder -/

/-- Why a word is no operation. -/
inductive DecodeError where
  /-- `OP` in 0x9..0xF (R73): raised by the request decoder. -/
  | illegalOp (op : BitVec 4)
  /-- INIT_CFG with `k` 6 or 7 (R73): raised by the request decoder. -/
  | illegalBiasCom (k : BitVec 3)
  /-- A wire bit string that is neither frame (R55): raised for the internal framing operations. -/
  | malformedFrame
deriving DecidableEq, Repr

/-- Field `REQ[lo+len-1 : lo]` of a request word. -/
def reqField (w : ReqWord) (lo len : Nat) : BitVec len := w.extractLsb' lo len

/-- A request word (R71, R72): looks only at `OP` and the named fields; reserved bits are ignored (R73). -/
def decodeRequest (w : ReqWord) : Except DecodeError Instr :=
  match (reqField w 44 4).toNat with
  | 0 => .ok .init
  | 1 => if (reqField w 0 3).toNat < 6 then .ok (.initCfg (reqField w 0 3)) else .error (.illegalBiasCom (reqField w 0 3))
  | 2 => .ok .clear
  | 3 => .ok (.writeRaw (reqField w 8 5) (reqField w 0 4))
  | 4 => .ok (.displayDigit (reqField w 16 8) (reqField w 8 8) (reqField w 0 1 == 1#1))
  | 5 => .ok (.displayNumber (reqField w 0 32) (reqField w 32 1 == 1#1))
  | 6 => .ok (.displayFloat (reqField w 0 32) (reqField w 32 8))
  | 7 => .ok (.displayHex (reqField w 0 24))
  | 8 => .ok .testPattern
  | _ => .error (.illegalOp (reqField w 44 4))

/-- A wire frame as an operation (R90, R91): a named code gives the named row, any other code the generic one (log 12). -/
def instrOfFrame : Frame → Instr
  | .cmd c => match commandOf c with
    | some n => instrOfCommand n
    | none => .sendCommand c
  | .write a d => .writeMemory a d

/-- The decoder: total, rejecting by name. -/
def decode : PortWord → Except DecodeError Instr
  | .request w => decodeRequest w
  | .frame bits => match frameOfBits bits with
    | some f => .ok (instrOfFrame f)
    | none => .error .malformedFrame

/-! ### The encoder -/

/-- The request word `{OP, operands}` (R71), reserved bits 0. -/
def encode : Instr → PortWord
  | .init => .request 0x000000000000#48
  | .initCfg k => .request (0x1#4 ++ 0#41 ++ k)
  | .clear => .request 0x200000000000#48
  | .writeRaw addr nibble => .request (0x3#4 ++ 0#31 ++ addr ++ 0#4 ++ nibble)
  | .displayDigit position digitValue decimalPoint =>
    .request (0x4#4 ++ 0#20 ++ position ++ digitValue ++ 0#7 ++ BitVec.ofBool decimalPoint)
  | .displayNumber value leadingZeros => .request (0x5#4 ++ 0#11 ++ BitVec.ofBool leadingZeros ++ value)
  | .displayFloat value decimals => .request (0x6#4 ++ 0#4 ++ decimals ++ value)
  | .displayHex value => .request (0x7#4 ++ 0#20 ++ value)
  | .testPattern => .request 0x800000000000#48
  | .sendCommand c => .frame (bitsOfFrame (.cmd c))
  | .writeMemory a d => .frame (bitsOfFrame (.write a d))
  | .sendCommandSysDis => .frame (bitsOfFrame (.cmd (Config.cmdCode .sysDis)))
  | .sendCommandSysEn => .frame (bitsOfFrame (.cmd (Config.cmdCode .sysEn)))
  | .sendCommandLcdOff => .frame (bitsOfFrame (.cmd (Config.cmdCode .lcdOff)))
  | .sendCommandLcdOn => .frame (bitsOfFrame (.cmd (Config.cmdCode .lcdOn)))
  | .sendCommandOsc => .frame (bitsOfFrame (.cmd (Config.cmdCode .osc)))
  | .sendCommandBiasCom0 => .frame (bitsOfFrame (.cmd (Config.cmdCode (.biasCom 0))))
  | .sendCommandBiasCom1 => .frame (bitsOfFrame (.cmd (Config.cmdCode (.biasCom 1))))
  | .sendCommandBiasCom2 => .frame (bitsOfFrame (.cmd (Config.cmdCode (.biasCom 2))))
  | .sendCommandBiasCom3 => .frame (bitsOfFrame (.cmd (Config.cmdCode (.biasCom 3))))
  | .sendCommandBiasCom4 => .frame (bitsOfFrame (.cmd (Config.cmdCode (.biasCom 4))))
  | .sendCommandBiasCom5 => .frame (bitsOfFrame (.cmd (Config.cmdCode (.biasCom 5))))

/-! ### Words as the opcode table numbers them -/

/-- The word of an opcode-table row: up to 16 bits is a frame row, whose value as an integer has the first-sent bit as its
top bit (R61, R62), so 11 bits where it fits in 11, else 13, else no frame; more bits is a request word (log 13). -/
def tableWord (nbits w : Nat) : PortWord :=
  if nbits ≤ 16 then
    .frame (bitsMsbFirst w (if w < 2 ^ 11 then 11 else if w < 2 ^ 13 then 13 else 16))
  else .request (BitVec.ofNat 48 w)

/-- The instruction the decoder reads from a table word. -/
def decodeTableWord (nbits w : Nat) : Option Instr := (decode (tableWord nbits w)).toOption

end Sys2Proof
end

