-- ==== Sys2Proof/Machine/State.lean ====
section
/-! DEFINITION. The state of the block, its receiver and its host port, as plain data; the reasons a step can stop; reset. -/

namespace Sys2Proof.Machine

/-- Why the machine stops with a fault: never. The spec names no condition that stops the block: its two error conditions,
DEVICE_NOT_READY (R143) and BAD_REQUEST (R147), are taken as next states (`takeDeviceNotReady`, `takeBadRequest`). -/
inductive Fault where
deriving DecidableEq, Repr

/-- Where the spec itself says `refuse`: the run has no meaning (R7). All safe: nothing can be proved of what follows. -/
inductive Refusal where
  /-- An arm of `exec` without a meaning yet; raised by no arm of this model. Safe. -/
  | notModelled (mnemonic : String)
  /-- A display operation while `ST` is not `READY` (R97): raised by CLEAR, WRITE_RAW, DISPLAY_DIGIT, DISPLAY_NUMBER,
  DISPLAY_FLOAT, DISPLAY_HEX, TEST_PATTERN. Safe. -/
  | notReady
  /-- INIT or INIT_CFG while `ST = READY` (R98). Safe. -/
  | alreadyInitialised
  /-- DISPLAY_FLOAT of a NaN, an infinity or a magnitude of 2147483.648 or more (R126). Safe. -/
  | floatOutsideDomain
  /-- A request presented while `BUSY = 1` (R163): raised by the step. Safe. -/
  | requestWhileBusy
  /-- A wire word that is neither frame (R55, U4): raised by the step for the internal framing operations. Safe. -/
  | malformedFrame
deriving DecidableEq, Repr

/-- The outcome of an operation or a step. -/
abbrev Result (σ : Type) := Host.Outcome σ Fault Refusal

/-- `ST`, the driver's life cycle (R22). -/
inductive LifeCycle where
  | reset
  | ready
  | failed
deriving DecidableEq, Repr

/-- `RESULT`, the outcome of the most recent request (R25). -/
inductive RequestResult where
  | ok
  | errDeviceNotReady
  | errBadRequest
deriving DecidableEq, Repr

/-- One pin event (R7). `v` is a level, `true` high. -/
inductive PinEvent where
  | cfg (l : Line) (v : Bool)
  | set (l : Line) (v : Bool)
  | delayUs (n : Nat)
  | delayMs (n : Nat)
deriving DecidableEq, Repr

/-- The controller's display memory `MEM` (R29, R40): the cells written since reset, by address, strictly rising; a cell
not listed holds its unspecified reset content and reads as no value (log 8). `poisoned` after a write frame whose address
has no cell, or a malformed frame (R47, R53, R55; log 9). -/
inductive Memory where
  | cells (listed : List (Nat × Nibble))
  | poisoned
deriving DecidableEq, Repr

/-- The receiver's configuration flags (R30). -/
structure Flags where
  cSys : Bool
  cLcd : Bool
  cOsc : Bool
  cBias : Option BiasCom
deriving DecidableEq, Repr

/-- The receiver flags, or poisoned after a malformed frame (R55; log 9). -/
inductive Controller where
  | flags (f : Flags)
  | poisoned
deriving DecidableEq, Repr

/-- The three lines and the receiver that watches them. Every field is a function of the pin events (R31, R53, R54). -/
structure Bus where
  /-- `DIR[L]` (R21). -/
  dir : LineMap Direction
  /-- `LVL[L]` (R21). -/
  lvl : LineMap Bool
  /-- The bits sampled of the frame in progress, first received first; `none` while no frame is open (R54, R33(d)). -/
  rxBits : Option (List Bool)
  /-- `FRAMES` (R31), oldest first. -/
  frames : List Frame
  /-- `MEM` (R29). -/
  mem : Memory
  /-- `C_SYS`, `C_LCD`, `C_OSC`, `C_BIAS` (R30). -/
  controller : Controller
deriving DecidableEq, Repr

/-- One request as the host presents it, with the platform's six answers at that moment (R24, R70; log 10). -/
structure Presented where
  word : PortWord
  readyIn : LineMap Bool
  cfgokIn : LineMap Bool
deriving DecidableEq, Repr

/-- The whole state (R21). -/
structure State where
  /-- `ST` (R22). -/
  st : LifeCycle
  /-- `CFG` (R23). -/
  cfg : BiasCom
  /-- `RESULT` (R25). -/
  result : RequestResult
  /-- `BUSY` (R70). -/
  busy : Bool
  /-- The host's stream of requests, the one on the port first (R27, R70; log 10). -/
  requests : List Presented
  /-- `READY_IN[L]` (R24). -/
  readyIn : LineMap Bool
  /-- `CFGOK_IN[L]` (R24). -/
  cfgokIn : LineMap Bool
  /-- `NEG`, `MAG`, `DIG`, `N`, `POS`, `DEC`, `PAT`, `ADDR` (R26). -/
  temps : Temps
  /-- `DIR`, `LVL`, the frame in progress, `FRAMES`, `MEM`, the `C_` flags. -/
  bus : Bus
  /-- `PINTRACE` (R31), oldest first. -/
  pinTrace : List PinEvent
deriving DecidableEq, Repr

/-- `REQ_VALID` (R70): the host presents a request. -/
def State.reqValid (s : State) : Bool := !s.requests.isEmpty

/-- The lines and the receiver at reset (R34, R160): no frame open, nothing written; directions, levels and all four flags
left unconstrained (log 5, 23, 24). -/
def Bus.reset : Bus where
  dir := Config.resetDir
  lvl := Config.resetLvl
  rxBits := none
  frames := []
  mem := .cells []
  controller := .flags ⟨Config.resetCSys, Config.resetCLcd, Config.resetCOsc, Config.resetCBias⟩

/-- The state before the first request (R34, R160). -/
def State.reset : State where
  st := .reset
  cfg := Config.resetCfg
  result := .ok
  busy := false
  requests := []
  readyIn := ⟨true, true, true⟩
  cfgokIn := ⟨true, true, true⟩
  temps := Config.resetTemps
  bus := Bus.reset
  pinTrace := []

end Sys2Proof.Machine
end

