-- ==== Sys2Proof/Machine/Flags.lean ====
section
/-! DEFINITION. The receiver flags: what each named command records (R30, R92). The block itself has no flags (R28). -/

namespace Sys2Proof.Machine

/-- What the receiver records for a named command (R92). -/
def Flags.record (n : SysCommand) (f : Flags) : Flags :=
  match n with
  | .sysDis => { f with cSys := false }
  | .sysEn => { f with cSys := true }
  | .lcdOff => { f with cLcd := false }
  | .lcdOn => { f with cLcd := true }
  | .osc => { f with cOsc := true }
  | .biasCom k => { f with cBias := some k }

/-- What the receiver records for a command byte: one that is none of the eleven codes changes no flag (R30). -/
def Flags.receive (c : BitVec 8) (f : Flags) : Flags :=
  match commandOf c with
  | some n => f.record n
  | none => f

/-- The flags after `Cmd(c)` (R53); poison stays (log 9). -/
def Controller.receive (c : BitVec 8) : Controller → Controller
  | .flags f => .flags (f.receive c)
  | .poisoned => .poisoned

end Sys2Proof.Machine
end

