-- ==== Sys2Proof/Machine/Ops.lean ====
section
/-! DEFINITION. The shared operations: lines, controller memory, the receiver, pin events, and the two error conditions. -/

namespace Sys2Proof

/-- The value for line `l`. -/
def LineMap.get {α : Type} (m : LineMap α) : Line → α
  | .cs => m.cs
  | .wr => m.wr
  | .data => m.data

/-- The map with line `l` at `v`. -/
def LineMap.set {α : Type} (m : LineMap α) (l : Line) (v : α) : LineMap α :=
  match l with
  | .cs => { m with cs := v }
  | .wr => { m with wr := v }
  | .data => { m with data := v }

/-- CS, WR, DATA, in the order the spec's loops take them (R93, D11). -/
def Line.inOrder : List Line := [.cs, .wr, .data]

end Sys2Proof

namespace Sys2Proof.Machine

/-! ### Controller memory -/

/-- The cell list with cell `a` holding `d`, its order kept. -/
def insertCell (a : Nat) (d : Nibble) : List (Nat × Nibble) → List (Nat × Nibble)
  | [] => [(a, d)]
  | (b, e) :: rest =>
    if a < b then (a, d) :: (b, e) :: rest
    else if a = b then (a, d) :: rest
    else (b, e) :: insertCell a d rest

/-- The listed value of cell `a`. -/
def lookupCell (a : Nat) : List (Nat × Nibble) → Option Nibble
  | [] => none
  | (b, e) :: rest => if a = b then some e else lookupCell a rest

/-- `MEM[a] <- d` for an existing cell; an address with no cell poisons (R53). -/
def Memory.write (a : Nat) (d : Nibble) : Memory → Memory
  | .cells listed => if a < Config.memCells then .cells (insertCell a d listed) else .poisoned
  | .poisoned => .poisoned

/-- The content of cell `a`, for an observer (the block never reads it, R46): no value while unspecified or poisoned. -/
def Memory.read (a : Nat) : Memory → Option Nibble
  | .cells listed => lookupCell a listed
  | .poisoned => none

/-- The canonical form: addresses strictly rising, all of existing cells. -/
def Memory.wf : Memory → Bool
  | .cells listed => decide (listed.Pairwise fun p q => p.1 < q.1) && listed.all fun p => decide (p.1 < Config.memCells)
  | .poisoned => true

/-! ### The reference receiver (R53 to R55) -/

/-- A complete frame arrives: `FRAMES` grows; a write changes `MEM`, a command the flags, and nothing else (R53). -/
def Bus.receive (f : Frame) (b : Bus) : Bus :=
  match f with
  | .cmd c => { b with frames := b.frames ++ [f], controller := b.controller.receive c }
  | .write a d => { b with frames := b.frames ++ [f], mem := b.mem.write a.toNat d }

/-- A malformed frame: the whole receiver state is poisoned (R55). -/
def Bus.poison (b : Bus) : Bus := { b with mem := .poisoned, controller := .poisoned }

/-- CS rises on an open frame: the bit string is decoded (R54); a CS edge inside a bit cell is malformed (R55). -/
def Bus.closeFrame (bits : List Bool) (b : Bus) : Bus :=
  if b.lvl.wr then
    match frameOfBits bits with
    | some f => b.receive f
    | none => b.poison
  else b.poison

/-- What the receiver does at a `Set(L, v)`, the levels still the old ones (R54): CS falling opens a frame, CS rising closes
it, WR rising while a frame is open samples DATA. -/
def Bus.react (l : Line) (v : Bool) (b : Bus) : Bus :=
  match l, v with
  | .cs, false =>
    if b.lvl.cs then
      if b.lvl.wr then { b with rxBits := some [] } else { b.poison with rxBits := some [] }
    else b
  | .cs, true =>
    match b.rxBits with
    | some bits => { b.closeFrame bits with rxBits := none }
    | none => b
  | .wr, true =>
    if b.lvl.wr then b else { b with rxBits := b.rxBits.map (· ++ [b.lvl.data]) }
  | .wr, false => b
  | .data, _ => b

/-- The lines and the receiver after one pin event (R7). -/
def Bus.observe (b : Bus) (e : PinEvent) : Bus :=
  match e with
  | .cfg l v => { b with dir := b.dir.set l .output, lvl := b.lvl.set l v }
  | .set l v => { b.react l v with lvl := b.lvl.set l v }
  | .delayUs _ => b
  | .delayMs _ => b

/-- The lines and the receiver after a list of pin events. -/
def Bus.observeAll (b : Bus) (events : List PinEvent) : Bus := events.foldl Bus.observe b

/-! ### The driver's own steps -/

/-- Perform pin events in order: `PINTRACE` gains them, the lines and the receiver see them (R7, R31). -/
def performAll (events : List PinEvent) (s : State) : State :=
  { s with pinTrace := s.pinTrace ++ events, bus := s.bus.observeAll events }

/-- The operation completes: `RESULT <- OK` (R25). -/
def complete (s : State) : State := { s with result := .ok }

/-- Acceptance of a display operation: only while `ST = READY` (R97); accepted, it runs and completes. -/
def whenReady (op : State → State) (s : State) : Result State :=
  if s.st = .ready then .next (complete (op s)) else .refused .notReady

/-! ### The two error conditions -/

/-- `raise DEVICE_NOT_READY` (R143): `ST <- FAILED`, `RESULT <- ERR_DEVICE_NOT_READY`, nothing more happens; what was
done before stays. There is no handler and nothing is saved; the retry is a new INIT or INIT_CFG (R144). -/
def takeDeviceNotReady (s : State) : State := { s with st := .failed, result := .errDeviceNotReady }

/-- `BAD_REQUEST` (R147): `RESULT <- ERR_BAD_REQUEST` and no other change. -/
def takeBadRequest (s : State) : State := { s with result := .errBadRequest }

/-! ### The host port -/

/-- The block accepts the presented request and raises `BUSY` (R70); the platform's answers are those given with it (R24). -/
def accept (p : Presented) (rest : List Presented) (s : State) : State :=
  { s with requests := rest, readyIn := p.readyIn, cfgokIn := p.cfgokIn, busy := true }

/-- `BUSY` falls when the operation has performed its last pin event (R70, R172). -/
def release : Result State → Result State
  | .next s => .next { s with busy := false }
  | .fault r => .fault r
  | .refused r => .refused r

/-- A word that decodes to no operation: an illegal request takes BAD_REQUEST (R147, R148); a wire word that is no frame
has no meaning (R55, U4). -/
def rejectWord (e : DecodeError) (s : State) : Result State :=
  match e with
  | .illegalOp _ => .next (takeBadRequest s)
  | .illegalBiasCom _ => .next (takeBadRequest s)
  | .malformedFrame => .refused .malformedFrame

end Sys2Proof.Machine
end

