-- ==== Sys2Proof/Machine/Operands.lean ====
section
/-! DEFINITION. How operand fields are read (R69, R72), and the binary32 datum with the two scaling candidates (R125, R126). -/

namespace Sys2Proof.Machine

/-- A digit value from its 8-bit port encoding (R69): 16 is BLANK, 17 MINUS, 18..255 unrecognized and so BLANK (R110). -/
def digitOfPort (v : BitVec 8) : DigitValue :=
  if v.toNat < 16 then .digit (v.setWidth 4)
  else if v.toNat = 17 then .minus
  else .blank

/-- `clamp(decimals, 0, 3)`, `decimals` signed (R72, R124 step 1). -/
def clampDecimals (decimals : BitVec 8) : Nat := (max 0 (min 3 decimals.toInt)).toNat

/-- The magnitude bits of a binary32 datum: exponent and fraction, sign dropped. -/
def floatMagnitude (value : BitVec 32) : BitVec 31 := value.setWidth 31

/-- `value < 0` of a binary32 datum: false for -0.0 (R124 step 2, D24). -/
def floatNegative (value : BitVec 32) : Bool := value.msb && floatMagnitude value != 0

/-- The exponent field of a binary32 magnitude (R72). -/
def floatExponent (m : BitVec 31) : Nat := (m.extractLsb' 23 8).toNat

/-- The fraction field of a binary32 magnitude (R72). -/
def floatFraction (m : BitVec 31) : Nat := (m.extractLsb' 0 23).toNat

/-- The exact value of a finite binary32 magnitude times `2^149`, a natural number. -/
def floatTimes2p149 (m : BitVec 31) : Nat :=
  if floatExponent m = 0 then floatFraction m
  else (2 ^ 23 + floatFraction m) * 2 ^ (floatExponent m - 1)

/-- The domain of DISPLAY_FLOAT (R126): finite, and `abs(value) < 2147483.648`, that is `abs(value) * 1000 < 2^31`. -/
def floatInDomain (m : BitVec 31) : Bool :=
  floatExponent m != 255 && decide (floatTimes2p149 m * 1000 < 2 ^ 31 * 2 ^ 149)

/-- `SCALE_EXACT(a) = floor(a * 1000)` (R125). -/
def scaleExact (m : BitVec 31) : Nat := floatTimes2p149 m * 1000 / 2 ^ 149

/-- The binary32 value nearest to `p * 2^-149`, ties to even, times `2^149` (no upper limit on the exponent). -/
def roundBinary32 (p : Nat) : Nat :=
  if p < 2 ^ 24 then p
  else
    let shift := Nat.log2 p - 23
    let q := p / 2 ^ shift
    let r := p % 2 ^ shift
    if 2 ^ shift < 2 * r ∨ (2 ^ shift = 2 * r ∧ q % 2 = 1) then (q + 1) * 2 ^ shift else q * 2 ^ shift

/-- `SCALE_F32(a) = floor(RN32(a * 1000))` (R125). -/
def scaleF32 (m : BitVec 31) : Nat := roundBinary32 (floatTimes2p149 m * 1000) / 2 ^ 149

end Sys2Proof.Machine
end

