-- ==== Sys2Proof/Machine/Serializer.lean ====
section
/-! DEFINITION. The Bit Serializer (R80 to R84): values as pin events. -/

namespace Sys2Proof.Machine

/-- `T`, the one delay that follows every edge of a frame (R80). -/
def delayQuantum : PinEvent := .delayUs Config.tUs

/-- `send_bit(b)`: one bit cell (R81). -/
def sendBit (b : Bool) : List PinEvent :=
  [.set .wr false, delayQuantum, .set .data b, delayQuantum, .set .wr true, delayQuantum]

/-- `send_bits(value, bit_count)`: from bit `bit_count - 1` down to bit 0 (R82). -/
def sendBits (value : Nat) : Nat → List PinEvent
  | 0 => []
  | n + 1 => sendBit (value.testBit n) ++ sendBits value n

/-- `frame_begin()`: the CS-low preamble (R83). -/
def frameBegin : List PinEvent := [.set .cs false, delayQuantum]

/-- `frame_end()`: the CS-high postamble (R84); the receiver emits the frame at the `Set(CS, 1)`. -/
def frameEnd : List PinEvent := [.set .cs true, delayQuantum]

end Sys2Proof.Machine
end

