-- ==== Sys2Proof/Machine/Protocol.lean ====
section
/-! DEFINITION. The Command/Address Protocol (R90 to R92): the two framing operations and the eleven named commands. -/

namespace Sys2Proof.Machine

/-- The pin events of `send_command(cmd)` (R90). -/
def sendCommandEvents (cmd : BitVec 8) : List PinEvent :=
  frameBegin ++ sendBits prefixCmd 3 ++ sendBits cmd.toNat 8 ++ frameEnd

/-- The pin events of `write_memory(addr, data)` (R91). -/
def writeMemoryEvents (addr : BitVec 6) (data : Nibble) : List PinEvent :=
  frameBegin ++ sendBits prefixWrite 3 ++ sendBits addr.toNat 6 ++ sendBits data.toNat 4 ++ frameEnd

/-- `send_command(cmd)` (R90). -/
def sendCommand (cmd : BitVec 8) (s : State) : State := performAll (sendCommandEvents cmd) s

/-- `write_memory(addr, data)` (R91). -/
def writeMemory (addr : BitVec 6) (data : Nibble) (s : State) : State := performAll (writeMemoryEvents addr data) s

/-- `send_command c` as an operation (R90): a fixed, unconditional sequence; it is no request, so `ST` is not asked and
`RESULT` is not written (log 11). -/
def execSendCommand (c : BitVec 8) (s : State) : Result State := .next (sendCommand c s)

/-- `write_memory a, d` as an operation (R91; log 11). -/
def execWriteMemory (a : BitVec 6) (d : Nibble) (s : State) : Result State := .next (writeMemory a d s)

/-- system-disable (R92). -/
def execSendCommandSysDis (s : State) : Result State := .next (sendCommand (Config.cmdCode .sysDis) s)

/-- system-enable (R92). -/
def execSendCommandSysEn (s : State) : Result State := .next (sendCommand (Config.cmdCode .sysEn) s)

/-- LCD-off (R92). -/
def execSendCommandLcdOff (s : State) : Result State := .next (sendCommand (Config.cmdCode .lcdOff) s)

/-- LCD-on (R92). -/
def execSendCommandLcdOn (s : State) : Result State := .next (sendCommand (Config.cmdCode .lcdOn) s)

/-- oscillator-select (R92). -/
def execSendCommandOsc (s : State) : Result State := .next (sendCommand (Config.cmdCode .osc) s)

/-- bias/commons select, setting BC0 (R92). -/
def execSendCommandBiasCom0 (s : State) : Result State := .next (sendCommand (Config.cmdCode (.biasCom 0)) s)

/-- bias/commons select, setting BC1 (R92). -/
def execSendCommandBiasCom1 (s : State) : Result State := .next (sendCommand (Config.cmdCode (.biasCom 1)) s)

/-- bias/commons select, setting BC2 (R92). -/
def execSendCommandBiasCom2 (s : State) : Result State := .next (sendCommand (Config.cmdCode (.biasCom 2)) s)

/-- bias/commons select, setting BC3 (R92). -/
def execSendCommandBiasCom3 (s : State) : Result State := .next (sendCommand (Config.cmdCode (.biasCom 3)) s)

/-- bias/commons select, setting BC4 (R92). -/
def execSendCommandBiasCom4 (s : State) : Result State := .next (sendCommand (Config.cmdCode (.biasCom 4)) s)

/-- bias/commons select, setting BC5 (R92). -/
def execSendCommandBiasCom5 (s : State) : Result State := .next (sendCommand (Config.cmdCode (.biasCom 5)) s)

end Sys2Proof.Machine
end

