-- ==== Sys2Proof/Machine/Init.lean ====
section
/-! DEFINITION. Initialization (R93, R94, R98, R141 to R143). -/

namespace Sys2Proof.Machine

/-- Configure lines in order as outputs at the idle-high level, stopping at the first that cannot be configured: the `Cfg`
events performed, and whether all were (R93, R142). -/
def configureLines (cfgok : LineMap Bool) : List Line → List PinEvent × Bool
  | [] => ([], true)
  | l :: rest =>
    if cfgok.get l then
      let more := configureLines cfgok rest
      (.cfg l true :: more.1, more.2)
    else ([], false)

/-- The four commands of the initialization sequence, their order fixed (R93, R161). -/
def initCommands (k : BiasCom) : List PinEvent :=
  sendCommandEvents (Config.cmdCode (.biasCom k)) ++ sendCommandEvents (Config.cmdCode .osc) ++
    sendCommandEvents (Config.cmdCode .sysEn) ++ sendCommandEvents (Config.cmdCode .lcdOn)

/-- `ST <- READY`, `RESULT <- OK` (R93). -/
def markReady (s : State) : State := { s with st := .ready, result := .ok }

/-- The power-up wait and then the four commands (R93, R171). -/
def powerUp (k : BiasCom) : List PinEvent := .delayMs Config.tPowerupMs :: initCommands k

/-- The initialization sequence with setting `k` (R93): `CFG` is written first; all three `READY_IN` are asked, then the
lines are configured; the first false answer raises DEVICE_NOT_READY (R142). -/
def initialise (k : BiasCom) (s : State) : Result State :=
  if s.st = .ready then .refused .alreadyInitialised
  else if Line.inOrder.all s.readyIn.get then
    let attempt := configureLines s.cfgokIn Line.inOrder
    let configured := performAll attempt.1 { s with cfg := k }
    if attempt.2 then .next (markReady (performAll (powerUp k) configured)) else .next (takeDeviceNotReady configured)
  else .next (takeDeviceNotReady { s with cfg := k })

/-- INIT (R94). -/
def execInit (s : State) : Result State := initialise Config.defaultBiasCom s

/-- INIT_CFG `k` (R93); `k` 6 and 7 are an illegal encoding, which takes BAD_REQUEST before `ST` is looked at
(R147, R148). -/
def execInitCfg (k : BitVec 3) (s : State) : Result State :=
  if h : k.toNat < 6 then initialise ⟨k.toNat, h⟩ s else .next (takeBadRequest s)

end Sys2Proof.Machine
end

