-- ==== Sys2Proof/Machine/Raw.lean ====
section
/-! DEFINITION. The raw memory operations CLEAR and WRITE_RAW (R95, R96). -/

namespace Sys2Proof.Machine

/-- `write_memory(a, 0)` for each address of a list, in order. -/
def clearCells : List Nat → State → State
  | [], s => s
  | a :: rest, s => clearCells rest (writeMemory (BitVec.ofNat 6 a) 0 s)

/-- CLEAR (R95): all 32 cells, ascending. -/
def execClear (s : State) : Result State := whenReady (clearCells (List.range Config.memCells)) s

/-- WRITE_RAW `addr, nibble` (R96): the address zero-extended to the frame's 6 bits (R72). -/
def execWriteRaw (addr : BitVec 5) (nibble : Nibble) (s : State) : Result State :=
  whenReady (writeMemory (addr.setWidth 6) nibble) s

end Sys2Proof.Machine
end

