-- ==== Sys2Proof/Machine/Digit.lean ====
section
/-! DEFINITION. The Segment Encoding Table and the Digit Renderer (R67, R68, R110 to R113). -/

namespace Sys2Proof.Machine

/-- `SEG_TABLE`, the default table of R68 (log 15). -/
def segTable : Vector Pattern 16 :=
  #v[0x3F, 0x06, 0x5B, 0x4F, 0x66, 0x6D, 0x7D, 0x07, 0x7F, 0x6F, 0x77, 0x7C, 0x39, 0x5E, 0x79, 0x71]

/-- `PAT_BLANK`: all segments off (R68). -/
def patBlank : Pattern := 0x00

/-- `PAT_MINUS`: only the middle segment, G (R68, D10; log 15). -/
def patMinus : Pattern := 0x40

/-- `encode_segment(v)` (R110). -/
def encodeSegment : DigitValue → Pattern
  | .digit n => segTable[n.toNat]'(n.isLt)
  | .blank => patBlank
  | .minus => patMinus

/-- `with_dp(pat, dp)`: the decimal point is bit 7 (R111). -/
def withDp (pat : Pattern) (dp : Bool) : Pattern := if dp then pat ||| 0x80 else pat

/-- `pat & 0xF` (R113). -/
def lowNibble (pat : Pattern) : Nibble := (pat &&& 0xF).setWidth 4

/-- `(pat >> 4) & 0xF` (R113). -/
def highNibble (pat : Pattern) : Nibble := ((pat >>> 4) &&& 0xF).setWidth 4

/-- The mapper: the low-nibble cell of a position (R41, R112). -/
def cellOfPosition (position : Nat) : BitVec 6 := BitVec.ofNat 6 (2 * position)

/-- `PAT <- pat`, `ADDR <- addr` (R113). -/
def setPatAddr (pat : Pattern) (addr : BitVec 6) (s : State) : State :=
  { s with temps := { s.temps with pat := pat, addr := addr } }

/-- `render_digit(position, digit_value, decimal_point)` (R113). -/
def renderDigit (position : Nat) (v : DigitValue) (dp : Bool) (s : State) : State :=
  if Config.maxDigits ≤ position then s
  else
    let pat := withDp (encodeSegment v) dp
    let addr := cellOfPosition position
    writeMemory (addr + 1) (highNibble pat) (writeMemory addr (lowNibble pat) (setPatAddr pat addr s))

/-- DISPLAY_DIGIT (R113). -/
def execDisplayDigit (position : BitVec 8) (digitValue : BitVec 8) (decimalPoint : Bool) (s : State) : Result State :=
  whenReady (renderDigit position.toNat (digitOfPort digitValue) decimalPoint) s

end Sys2Proof.Machine
end

