-- ==== Sys2Proof/Machine/Formatters.lean ====
section
/-! DEFINITION. The Numeric Formatters and the test pattern (R120 to R131). -/

namespace Sys2Proof.Machine

/-- One element of a formatter's sequence: a digit value and whether its decimal point is lit (R120). -/
abbrev Item := DigitValue × Bool

/-- Render a sequence left to right from a position on (R120); `render_digit` drops positions 6 and beyond. -/
def renderFrom : Nat → List Item → State → State
  | _, [], s => s
  | position, (v, dp) :: rest, s => renderFrom (position + 1) rest (renderDigit position v dp s)

/-! ### The sequences -/

/-- Digit extraction (R121 step 2, R124 step 4): `DIG[n], DIG[n+1], …` least significant first, until six digits (`fuel`
counts the rest) or the quotient is 0 and at least `minDig` digits are out. -/
def extractDigits (minDig : Nat) : (fuel n mag : Nat) → List (BitVec 4)
  | 0, _, _ => []
  | fuel + 1, n, mag =>
    BitVec.ofNat 4 (mag % 10) ::
      if mag / 10 = 0 ∧ minDig ≤ n + 1 then [] else extractDigits minDig fuel (n + 1) (mag / 10)

/-- The digits `DIG[i], DIG[i+1], …` as items, most significant first; the digit of index `dec` carries the point when
`dec > 0` (R124 step 5, D26). -/
def digitItems (dec : Nat) : Nat → List (BitVec 4) → List Item
  | _, [] => []
  | i, d :: rest => digitItems dec (i + 1) rest ++ [(.digit d, decide (0 < dec ∧ i = dec))]

/-- MINUS at position 0 for a negative value (R121 step 3). -/
def signItems (neg : Bool) : List Item := if neg then [(.minus, false)] else []

/-- Fill the rest of the six positions with BLANK (R121 step 5). -/
def fillBlank (items : List Item) : List Item :=
  items ++ List.replicate (Config.maxDigits - items.length) (.blank, false)

/-- `abs(value)` of the signed operand, exact (R121 step 1, R122). -/
def numberMagnitude (value : BitVec 32) : Nat := value.toInt.natAbs

/-- The extracted digits of DISPLAY_NUMBER (R121 step 2). -/
def numberDigits (value : BitVec 32) : List (BitVec 4) := extractDigits 1 Config.maxDigits 0 (numberMagnitude value)

/-- The sequence of DISPLAY_NUMBER (R121 steps 3 to 5): sign, leading zeros if asked, digits, fill. -/
def numberItems (value : BitVec 32) (leadingZeros : Bool) : List Item :=
  let sign := signItems (decide (value.toInt < 0))
  let digits := digitItems 0 0 (numberDigits value)
  let zeros := if leadingZeros then
      List.replicate (Config.maxDigits - sign.length - digits.length) (DigitValue.digit 0, false)
    else []
  fillBlank (sign ++ zeros ++ digits)

/-- `FLOAT_DIGIT_DROP` (R127, D21; log 16). -/
def floatDigitDrop : Bool := true

/-- `FLOAT_MIN_EXTRA` (R127, D22; log 16). -/
def floatMinExtra : Nat := 0

/-- MAG before extraction (R124 step 3): the scaled magnitude, its low `3 - DEC` digits dropped. -/
def floatScaled (scale : BitVec 31 → BitVec 32) (drop : Bool) (value : BitVec 32) (decimals : BitVec 8) : Nat :=
  let mag := (scale (floatMagnitude value)).toNat
  if drop then mag / 10 ^ (3 - clampDecimals decimals) else mag

/-- The extracted digits of DISPLAY_FLOAT (R124 step 4). -/
def floatDigits (scale : BitVec 31 → BitVec 32) (drop : Bool) (extra : Nat) (value : BitVec 32) (decimals : BitVec 8) :
    List (BitVec 4) :=
  extractDigits (max 1 (clampDecimals decimals + extra)) Config.maxDigits 0 (floatScaled scale drop value decimals)

/-- The sequence of DISPLAY_FLOAT (R124 step 5), for a scaling function and the two reading switches (R127). -/
def floatItems (scale : BitVec 31 → BitVec 32) (drop : Bool) (extra : Nat) (value : BitVec 32) (decimals : BitVec 8) :
    List Item :=
  fillBlank (signItems (floatNegative value) ++
    digitItems (clampDecimals decimals) 0 (floatDigits scale drop extra value decimals))

/-- The sequence of DISPLAY_HEX (R128): all six nibbles, most significant first. -/
def hexItems (value : BitVec 24) : List Item :=
  [5, 4, 3, 2, 1, 0].map fun i => (.digit ((value >>> (4 * i)).setWidth 4), false)

/-! ### The working temporaries (R26) -/

/-- `DIG[i] <- d` for the digits of a list, from index `i` on. -/
def storeDigits : List (BitVec 4) → Nat → Vector (BitVec 4) 6 → Vector (BitVec 4) 6
  | [], _, dig => dig
  | d :: rest, i, dig => storeDigits rest (i + 1) (dig.setIfInBounds i d)

/-- What a decimal formatter leaves in NEG, MAG (the quotient left after extraction), DIG, N and POS (R121, R124). -/
def formatTemps (neg : Bool) (mag : Nat) (digits : List (BitVec 4)) (items : List Item) (t : Temps) : Temps :=
  { t with
    neg := neg
    mag := BitVec.ofNat 32 (mag / 10 ^ digits.length)
    dig := storeDigits digits 0 t.dig
    n := BitVec.ofNat 3 digits.length
    pos := BitVec.ofNat 4 items.length }

/-- The state with its temporaries changed. -/
def updateTemps (f : Temps → Temps) (s : State) : State := { s with temps := f s.temps }

/-! ### The operations -/

/-- DISPLAY_NUMBER (R121). -/
def displayNumber (value : BitVec 32) (leadingZeros : Bool) (s : State) : State :=
  let items := numberItems value leadingZeros
  renderFrom 0 items
    (updateTemps (formatTemps (decide (value.toInt < 0)) (numberMagnitude value) (numberDigits value) items) s)

/-- DISPLAY_NUMBER as a request (R121, R97). -/
def execDisplayNumber (value : BitVec 32) (leadingZeros : Bool) (s : State) : Result State :=
  whenReady (displayNumber value leadingZeros) s

/-- DISPLAY_FLOAT (R124), with the OPEN scaling and the normative switches. -/
def displayFloat (value : BitVec 32) (decimals : BitVec 8) (s : State) : State :=
  let digits := floatDigits Config.scale1000 floatDigitDrop floatMinExtra value decimals
  let items := floatItems Config.scale1000 floatDigitDrop floatMinExtra value decimals
  renderFrom 0 items
    (updateTemps (fun t => { formatTemps (floatNegative value)
      (floatScaled Config.scale1000 floatDigitDrop value decimals) digits items t with
        dec := BitVec.ofNat 2 (clampDecimals decimals) }) s)

/-- DISPLAY_FLOAT as a request: `ST` first (R97), then the domain (R126, R148). -/
def execDisplayFloat (value : BitVec 32) (decimals : BitVec 8) (s : State) : Result State :=
  if s.st = .ready ∧ floatInDomain (floatMagnitude value) = false then .refused .floatOutsideDomain
  else whenReady (displayFloat value decimals) s

/-- DISPLAY_HEX as a request (R128, R97). -/
def execDisplayHex (value : BitVec 24) (s : State) : Result State := whenReady (renderFrom 0 (hexItems value)) s

/-- One step of the test pattern: every position shows `d`, then the inter-step delay (R129). -/
def testStep (d : Nat) (s : State) : State :=
  performAll [.delayMs Config.testStepMs]
    (renderFrom 0 (List.replicate Config.maxDigits (.digit (BitVec.ofNat 4 d), false)) s)

/-- The steps of the test pattern for a list of digits (R129). -/
def testSteps : List Nat → State → State
  | [], s => s
  | d :: rest, s => testSteps rest (testStep d s)

/-- TEST_PATTERN as a request (R129, R97): digits 0 to 9. -/
def execTestPattern (s : State) : Result State := whenReady (testSteps (List.range 10)) s

end Sys2Proof.Machine
end

