-- ==== Sys2Proof/Machine/Dispatch.lean ====
section
/-! DEFINITION. One arm per operation. -/

namespace Sys2Proof.Machine

/-- What an operation does. -/
def exec (i : Instr) (s : State) : Host.Outcome State Fault Refusal :=
  match i with
  | .init => Sys2Proof.Machine.execInit s
  | .initCfg k => Sys2Proof.Machine.execInitCfg k s
  | .clear => Sys2Proof.Machine.execClear s
  | .writeRaw addr nibble => Sys2Proof.Machine.execWriteRaw addr nibble s
  | .displayDigit position digitValue decimalPoint => Sys2Proof.Machine.execDisplayDigit position digitValue decimalPoint s
  | .displayNumber value leadingZeros => Sys2Proof.Machine.execDisplayNumber value leadingZeros s
  | .displayFloat value decimals => Sys2Proof.Machine.execDisplayFloat value decimals s
  | .displayHex value => Sys2Proof.Machine.execDisplayHex value s
  | .testPattern => Sys2Proof.Machine.execTestPattern s
  | .sendCommand c => Sys2Proof.Machine.execSendCommand c s
  | .writeMemory a d => Sys2Proof.Machine.execWriteMemory a d s
  | .sendCommandSysDis => Sys2Proof.Machine.execSendCommandSysDis s
  | .sendCommandSysEn => Sys2Proof.Machine.execSendCommandSysEn s
  | .sendCommandLcdOff => Sys2Proof.Machine.execSendCommandLcdOff s
  | .sendCommandLcdOn => Sys2Proof.Machine.execSendCommandLcdOn s
  | .sendCommandOsc => Sys2Proof.Machine.execSendCommandOsc s
  | .sendCommandBiasCom0 => Sys2Proof.Machine.execSendCommandBiasCom0 s
  | .sendCommandBiasCom1 => Sys2Proof.Machine.execSendCommandBiasCom1 s
  | .sendCommandBiasCom2 => Sys2Proof.Machine.execSendCommandBiasCom2 s
  | .sendCommandBiasCom3 => Sys2Proof.Machine.execSendCommandBiasCom3 s
  | .sendCommandBiasCom4 => Sys2Proof.Machine.execSendCommandBiasCom4 s
  | .sendCommandBiasCom5 => Sys2Proof.Machine.execSendCommandBiasCom5 s

end Sys2Proof.Machine
end

