-- ==== Sys2Proof/Machine/Step.lean ====
section
/-! DEFINITION. One step: the block takes the request on its port, if any, and runs it to completion. -/

namespace Sys2Proof.Machine

/-- One step. With no request presented (`REQ_VALID = 0`) the block is idle and nothing changes. A request while `BUSY = 1`
has no meaning (R163). Otherwise the word is decoded first (R148) and the operation runs to its last pin event, `BUSY`
raised before and lowered after (R70, R172). -/
def step (s : State) : Host.Outcome State Fault Refusal :=
  match s.requests with
  | [] => .next s
  | p :: rest =>
    if s.busy then .refused .requestWhileBusy
    else match decode p.word with
      | .ok i => release (exec i (accept p rest s))
      | .error e => release (rejectWord e (accept p rest s))

/-- The table word presented as the next request, with the platform's answers as they are (log 10, log 13). -/
def State.withFetchWord (s : State) (nbits w : Nat) : State :=
  { s with requests := ⟨tableWord nbits w, s.readyIn, s.cfgokIn⟩ :: s.requests, busy := false }

end Sys2Proof.Machine
end

