-- ==== Sys2Proof/Safety.lean ====
section
/-! DEFINITION. The terms claims use: the wire at rest, the frames and pin events of a picture, the blocks a trace is made of,
and the invariants of the machine. -/

namespace Sys2Proof.Machine

/-! ### The wire -/

/-- The lines between frames (R85(a)): CS and WR high, no frame open. DATA is whatever the last bit was (R168). -/
def Bus.Idle (b : Bus) : Prop := b.lvl.cs = true ∧ b.lvl.wr = true ∧ b.rxBits = none

/-- All three lines are configured as outputs. -/
def Bus.AllOutputs (b : Bus) : Prop := b.dir = ⟨.output, .output, .output⟩

/-- The pin events that put a frame on the wire (R90, R91). -/
def frameEvents : Frame → List PinEvent
  | .cmd c => sendCommandEvents c
  | .write a d => writeMemoryEvents a d

/-! ### What an operation leaves alone -/

/-- The driver's and the host's fields that no operation but INIT and INIT_CFG writes, and that `exec` never writes: only
`RESULT`, the temporaries, the bus and `PINTRACE` may differ. -/
structure DriverFrame (s t : State) : Prop where
  st : t.st = s.st
  cfg : t.cfg = s.cfg
  busy : t.busy = s.busy
  requests : t.requests = s.requests
  readyIn : t.readyIn = s.readyIn
  cfgokIn : t.cfgokIn = s.cfgokIn

/-- `t` is `s` after write frames and nothing else on the wire: `FRAMES` and `PINTRACE` gain exactly them, in order; the
wire is at rest again; directions and receiver flags are as before. -/
structure WroteFrames (sent : List Frame) (s t : State) : Prop where
  frames : t.bus.frames = s.bus.frames ++ sent
  trace : t.pinTrace = s.pinTrace ++ sent.flatMap frameEvents
  idle : t.bus.Idle
  dir : t.bus.dir = s.bus.dir
  controller : t.bus.controller = s.bus.controller

/-! ### Pictures -/

/-- The two write frames that show a pattern at a position: low nibble to the even cell, then high nibble to the odd one
(R41, R42). -/
def patternWrites (position : Nat) (pat : Pattern) : List Frame :=
  [.write (BitVec.ofNat 6 (2 * position)) (pat.extractLsb' 0 4),
    .write (BitVec.ofNat 6 (2 * position + 1)) (pat.extractLsb' 4 4)]

/-- The pattern of a digit value with its decimal-point flag (R110, R111). -/
def itemPattern (item : Item) : Pattern := withDp (encodeSegment item.1) item.2

/-- The frames of a left-to-right sequence from a position on; positions 6 and beyond give none (R120). -/
def pictureWrites : Nat → List Item → List Frame
  | _, [] => []
  | position, item :: rest =>
    (if position < 6 then patternWrites position (itemPattern item) else []) ++ pictureWrites (position + 1) rest

/-- The lowest `n` decimal digits of `m`, most significant first: digit `i` is `m div 10^i mod 10` (R123). -/
def lowDigits (m : Nat) : Nat → List DigitValue
  | 0 => []
  | n + 1 => .digit (BitVec.ofNat 4 (m / 10 ^ n % 10)) :: lowDigits m n

/-- The number of decimal digits of `m`, 0 for 0. -/
def decimalLength (m : Nat) : Nat := (Nat.digits 10 m).length

/-- `t` is `s` after the picture `items`: exactly its frames are sent; the cells of positions 0..5 hold the patterns of the
elements there (unless `MEM` was already poisoned, when nothing is said of it); cells from 12 on are as before; `RESULT` is
OK and the driver's other fields are as before. -/
structure Shows (items : List Item) (s t : State) : Prop where
  wrote : WroteFrames (pictureWrites 0 items) s t
  driver : DriverFrame s t
  result : t.result = .ok
  low : s.bus.mem ≠ .poisoned → ∀ p item, p < 6 → items[p]? = some item →
    t.bus.mem.read (2 * p) = some ((itemPattern item).extractLsb' 0 4)
  high : s.bus.mem ≠ .poisoned → ∀ p item, p < 6 → items[p]? = some item →
    t.bus.mem.read (2 * p + 1) = some ((itemPattern item).extractLsb' 4 4)
  rest : ∀ a, 12 ≤ a → t.bus.mem.read a = s.bus.mem.read a

/-! ### Traces -/

/-- What a `PINTRACE` is made of: line configurations at the idle-high level, millisecond waits, complete frames. -/
inductive TraceBlock where
  | cfg (l : Line)
  | wait (ms : Nat)
  | frame (f : Frame)
deriving DecidableEq, Repr

/-- The pin events of a block. -/
def TraceBlock.events : TraceBlock → List PinEvent
  | .cfg l => [.cfg l true]
  | .wait ms => [.delayMs ms]
  | .frame f => frameEvents f

/-- In a trace every `Set` is followed at once by one delay quantum (R85(e)). -/
def edgesDelayed : List PinEvent → Bool
  | [] => true
  | .set _ _ :: .delayUs n :: rest => n == Config.tUs && edgesDelayed rest
  | .set _ _ :: _ => false
  | .cfg _ _ :: rest => edgesDelayed rest
  | .delayUs _ :: rest => edgesDelayed rest
  | .delayMs _ :: rest => edgesDelayed rest

/-! ### Invariants -/

/-- `MEM` is in its canonical form. -/
def MemoryCanonical (s : State) : Prop := s.bus.mem.wf = true

/-- While `ST = READY` the wire is at rest and all lines are outputs (R85(a), R35). -/
def ReadyMeansAtRest (s : State) : Prop := s.st = .ready → s.bus.Idle ∧ s.bus.AllOutputs

/-- Lines, receiver and `FRAMES` are what the receiver makes of `PINTRACE` from reset (R31, R53, R54). -/
def BusFollowsTrace (s : State) : Prop := s.bus = Bus.reset.observeAll s.pinTrace

/-- `PINTRACE` is a sequence of blocks: no frame is ever cut short or interleaved with another (R49, R55). -/
def TraceOfBlocks (s : State) : Prop := ∃ blocks : List TraceBlock, s.pinTrace = blocks.flatMap TraceBlock.events

/-! ### Initialization -/

/-- The state after a successful initialization with setting `k` (R35, R93): the lines configured high, the 100 ms wait, the
four commands in order; `MEM` untouched. -/
def afterInit (k : BiasCom) (s : State) : State :=
  let codes := [Config.cmdCode (.biasCom k), Config.cmdCode .osc, Config.cmdCode .sysEn, Config.cmdCode .lcdOn]
  { s with
    st := .ready
    cfg := k
    result := .ok
    pinTrace := s.pinTrace ++ [.cfg .cs true, .cfg .wr true, .cfg .data true, .delayMs 100] ++
      codes.flatMap sendCommandEvents
    bus :=
      { dir := ⟨.output, .output, .output⟩
        lvl := ⟨true, true, (Config.cmdCode .lcdOn).getLsbD 0⟩
        rxBits := none
        frames := s.bus.frames ++ codes.map .cmd
        mem := s.bus.mem
        controller := .flags ⟨true, true, true, some k⟩ } }

/-- What a failing initialization has performed when it raises DEVICE_NOT_READY, by the platform's answers (R142); `none`
when all six answers are true and it does not fail. -/
def failedInitEvents (ready cfgok : LineMap Bool) : Option (List PinEvent) :=
  if ready.cs = false ∨ ready.wr = false ∨ ready.data = false then some []
  else if cfgok.cs = false then some []
  else if cfgok.wr = false then some [.cfg .cs true]
  else if cfgok.data = false then some [.cfg .cs true, .cfg .wr true]
  else none

/-- The state after a failed initialization with setting `k` that performed `events` (R143): lines already configured stay
configured at level 1; `MEM`, the flags and `FRAMES` are unchanged. -/
def afterFailedInit (k : BiasCom) (events : List PinEvent) (s : State) : State :=
  { s with
    st := .failed
    cfg := k
    result := .errDeviceNotReady
    pinTrace := s.pinTrace ++ events
    bus :=
      { s.bus with
        dir := ⟨if .cfg .cs true ∈ events then .output else s.bus.dir.cs,
          if .cfg .wr true ∈ events then .output else s.bus.dir.wr, s.bus.dir.data⟩
        lvl := ⟨if .cfg .cs true ∈ events then true else s.bus.lvl.cs,
          if .cfg .wr true ∈ events then true else s.bus.lvl.wr, s.bus.lvl.data⟩ } }

/-! ### Formatted sequences, from the spec's arithmetic -/

/-- The sequence `shown`, filled with BLANK to six positions (R120). -/
def filled (shown : List Item) : List Item := shown ++ List.replicate (6 - shown.length) (.blank, false)

/-- How many digits DISPLAY_NUMBER extracts: `max(1, min(6, number of decimal digits))` (R123). -/
def numberCount (value : BitVec 32) : Nat := max 1 (min 6 (decimalLength value.toInt.natAbs))

/-- The sequence DISPLAY_NUMBER shows before the fill: sign, leading zeros between sign and digits, the low digits (R121). -/
def numberShown (value : BitVec 32) (leadingZeros : Bool) : List Item :=
  let sign : List Item := if value.toInt < 0 then [(.minus, false)] else []
  let n := numberCount value
  let zeros : List Item := if leadingZeros then List.replicate (6 - sign.length - n) (.digit 0, false) else []
  sign ++ zeros ++ (lowDigits value.toInt.natAbs n).map fun d => (d, false)

/-- The magnitude DISPLAY_FLOAT extracts digits from, with the normative switches: the scaled value with its low
`3 - DEC` digits dropped (R124). -/
def floatKept (value : BitVec 32) (decimals : BitVec 8) : Nat :=
  (Config.scale1000 (value.setWidth 31)).toNat / 10 ^ (3 - (max 0 (min 3 decimals.toInt)).toNat)

/-- How many digits DISPLAY_FLOAT extracts: at least `DEC` and at least one, at most six (R124 step 4). -/
def floatCount (value : BitVec 32) (decimals : BitVec 8) : Nat :=
  min 6 (max (max 1 (max 0 (min 3 decimals.toInt)).toNat) (decimalLength (floatKept value decimals)))

/-- The sequence DISPLAY_FLOAT shows before the fill: sign of a value below zero, then the digits, the point on the digit
that has `DEC` digits to its right, none if `DEC = 0` (R124 step 5). -/
def floatShown (value : BitVec 32) (decimals : BitVec 8) : List Item :=
  let dec := (max 0 (min 3 decimals.toInt)).toNat
  let n := floatCount value decimals
  let sign : List Item := if value.msb = true ∧ value.setWidth 31 ≠ 0#31 then [(.minus, false)] else []
  sign ++ (lowDigits (floatKept value decimals) n).zipIdx.map fun p => (p.1, decide (0 < dec ∧ p.2 + dec + 1 = n))

/-! ### Request words -/

/-- The bits of a request word that the decoder looks at: `OP` and the named fields of that operation (R71, R73). -/
def careMask (op : BitVec 4) : ReqWord :=
  match op.toNat with
  | 1 => 0xF00000000007#48
  | 3 => 0xF00000001F0F#48
  | 4 => 0xF00000FFFF01#48
  | 5 => 0xF001FFFFFFFF#48
  | 6 => 0xF0FFFFFFFFFF#48
  | 7 => 0xF00000FFFFFF#48
  | _ => 0xF00000000000#48

/-- The nine operations a host can request (R71). -/
def IsHostOperation : Instr → Prop
  | .init | .initCfg _ | .clear | .writeRaw _ _ | .displayDigit _ _ _ | .displayNumber _ _ | .displayFloat _ _
  | .displayHex _ | .testPattern => True
  | .sendCommand _ | .writeMemory _ _ | .sendCommandSysDis | .sendCommandSysEn | .sendCommandLcdOff | .sendCommandLcdOn
  | .sendCommandOsc | .sendCommandBiasCom0 | .sendCommandBiasCom1 | .sendCommandBiasCom2 | .sendCommandBiasCom3
  | .sendCommandBiasCom4 | .sendCommandBiasCom5 => False

/-- The seven host operations that need `ST = READY` (R97). -/
def IsDisplayOperation : Instr → Prop
  | .clear | .writeRaw _ _ | .displayDigit _ _ _ | .displayNumber _ _ | .displayFloat _ _ | .displayHex _
  | .testPattern => True
  | .init | .initCfg _ | .sendCommand _ | .writeMemory _ _ | .sendCommandSysDis | .sendCommandSysEn | .sendCommandLcdOff
  | .sendCommandLcdOn | .sendCommandOsc | .sendCommandBiasCom0 | .sendCommandBiasCom1 | .sendCommandBiasCom2
  | .sendCommandBiasCom3 | .sendCommandBiasCom4 | .sendCommandBiasCom5 => False

end Sys2Proof.Machine
end

