-- ==== Sys2Proof/Certificates/Slice0/Obligations.lean ====
section
/-! DEFINITION. The statements for the provers. -/

open Sys2Proof Sys2Proof.Machine

/-! ### Decoding and encoding -/

/-- The worked request words of R71, one with the decimal point off (V-D2) and the wire bits of `write_memory(4, 7)` decode
to the operations they stand for; so does the frame word 0x14CA (V-P1), read as the model reads a table word of at most 16
bits, which is its own choice (log 13). -/
def Obligations.WrittenWordsDecode : Prop :=
  decode (.request 0x000000000000#48) = .ok .init ∧
  decode (.request 0x100000000003#48) = .ok (.initCfg 3) ∧
  decode (.request 0x200000000000#48) = .ok .clear ∧
  decode (.request 0x300000000C0A#48) = .ok (.writeRaw 12 0xA) ∧
  decode (.request 0x400000020701#48) = .ok (.displayDigit 2 7 true) ∧
  decode (.request 0x400000000800#48) = .ok (.displayDigit 0 8 false) ∧
  decode (.request 0x5000FFFFFFD6#48) = .ok (.displayNumber (-42) false) ∧
  decode (.request 0x500100000007#48) = .ok (.displayNumber 7 true) ∧
  decode (.request 0x600240490FD0#48) = .ok (.displayFloat 0x40490FD0 2) ∧
  decode (.request 0x6001C2C587AE#48) = .ok (.displayFloat 0xC2C587AE 1) ∧
  decode (.request 0x700000000042#48) = .ok (.displayHex 0x42) ∧
  decode (.request 0x700000ABCDEF#48) = .ok (.displayHex 0xABCDEF) ∧
  decode (.request 0x800000000000#48) = .ok .testPattern ∧
  decode (.frame [true, false, true, false, false, false, true, false, false, false, true, true, true]) =
    .ok (.writeMemory 4 7) ∧
  decodeTableWord 16 0x14CA = some (.writeMemory 12 0xA)

/-- For every well-formed operation of every row, decoding its encoding gives it back (R61, R62, R71, R72). -/
def Obligations.DecodeEncodeAgree : Prop :=
  ∀ i : Instr, i.WellFormed → decode (encode i) = .ok i

/-- The decoder reads only `OP` and the named fields of that operation: clearing every reserved bit of any request word
changes nothing (R73). -/
def Obligations.ReservedRequestBitsIgnored : Prop :=
  ∀ w : ReqWord, decode (.request w) = decode (.request (w &&& careMask (w.extractLsb' 44 4)))

/-- Encoding then decoding loses nothing the other way either: a request word that decodes is, on the bits the decoder
looks at, the encoding of what it decodes to (R71). -/
def Obligations.RequestWordsHaveOneMeaning : Prop :=
  ∀ (w : ReqWord) (i : Instr), decode (.request w) = .ok i →
    i.WellFormed ∧ encode i = .request (w &&& careMask (w.extractLsb' 44 4))

/-- A wire bit string is a frame exactly when it has 11 bits and begins 100, or 13 bits and begins 101 (R54, R64). -/
def Obligations.OnlyTwoFrameFormsDecode : Prop :=
  ∀ bits : List Bool, decode (.frame bits) = .error .malformedFrame ↔
    ¬ (bits.length = 11 ∧ bits.take 3 = [true, false, false]) ∧
    ¬ (bits.length = 13 ∧ bits.take 3 = [true, false, true])

/-! ### The step -/

/-- A presented word that decodes to an operation: the step is `exec` of it in the state where the request is taken from the
port, the platform's answers are those given with it and `BUSY` is raised; afterwards `BUSY` is lowered (R70, R27). -/
def Obligations.StepRunsTheDecodedOperation : Prop :=
  ∀ (s : State) (p : Presented) (rest : List Presented) (i : Instr),
    s.requests = p :: rest → s.busy = false → decode p.word = .ok i →
    let accepted := { s with requests := rest, readyIn := p.readyIn, cfgokIn := p.cfgokIn, busy := true }
    (∀ t, exec i accepted = .next t → step s = .next { t with busy := false }) ∧
    (∀ r, exec i accepted = .refused r → step s = .refused r) ∧
    (∀ r, exec i accepted ≠ .fault r)

/-- With no request presented nothing changes; a request presented while `BUSY = 1` and a wire word that is no frame have
no meaning (R70, R163, R55). -/
def Obligations.StepIdleBusyAndMalformed : Prop :=
  (∀ s : State, s.requests = [] → step s = .next s) ∧
  (∀ s : State, s.requests ≠ [] → s.busy = true → step s = .refused .requestWhileBusy) ∧
  (∀ (s : State) (p : Presented) (rest : List Presented), s.requests = p :: rest → s.busy = false →
    decode p.word = .error .malformedFrame → step s = .refused .malformedFrame)

/-- Every request the block takes leaves the port free: `BUSY` is 0 and the next request is up (R27, R70, R172). That the
stream is a list in State, and that the platform's answers come with its head and stay latched, is the model's choice
(log 10). -/
def Obligations.EveryRequestFreesThePort : Prop :=
  ∀ (s t : State) (p : Presented) (rest : List Presented), s.requests = p :: rest → step s = .next t →
    t.requests = rest ∧ t.busy = false ∧ t.readyIn = p.readyIn ∧ t.cfgokIn = p.cfgokIn

/-- An illegal request word, `OP` 9 to F or INIT_CFG with `k` 6 or 7, takes BAD_REQUEST: no pin event and no change but
`RESULT`, whatever `ST` is (R147, R148). That the request leaves a list and its answers are latched is the model's choice
(log 10). The operation INIT_CFG with such a `k`, run directly, takes BAD_REQUEST too: the model's reading (log 21). -/
def Obligations.IllegalRequestTakesBadRequest : Prop :=
  (∀ (s : State) (p : Presented) (rest : List Presented) (w : ReqWord),
    s.requests = p :: rest → s.busy = false → p.word = .request w →
    (9 ≤ (w.extractLsb' 44 4).toNat ∨ (w.extractLsb' 44 4 = 1#4 ∧ 6 ≤ (w.extractLsb' 0 3).toNat)) →
    step s = .next { s with requests := rest, readyIn := p.readyIn, cfgokIn := p.cfgokIn, result := .errBadRequest }) ∧
  (∀ (k : BitVec 3) (s : State), 6 ≤ k.toNat → exec (.initCfg k) s = .next { s with result := .errBadRequest })

/-! ### Reset -/

/-- The values the spec gives for reset (R34, R160, D1): `ST = RESET`, `RESULT = OK`, both traces empty. The rest is the model's
choice of how to leave a value unconstrained: `CFG`, the directions, the levels and the four flags are constants with no body
(log 5, 23, 24), and no cell of `MEM` has a known value (log 8). -/
def Obligations.ResetValues : Prop :=
  State.reset.st = .reset ∧ State.reset.result = .ok ∧
  State.reset.pinTrace = [] ∧ State.reset.bus.frames = [] ∧
  State.reset.cfg = Config.resetCfg ∧ State.reset.bus.dir = Config.resetDir ∧ State.reset.bus.lvl = Config.resetLvl ∧
  State.reset.bus.controller =
    .flags ⟨Config.resetCSys, Config.resetCLcd, Config.resetCOsc, Config.resetCBias⟩ ∧
  ∀ a, State.reset.bus.mem.read a = none

/-! ### Bit Serializer -/

/-- One bit cell, the preamble and the postamble, event by event, appended to `PINTRACE`, and the levels they leave
(R81, R83, R84). -/
def Obligations.BitCellAndFrameEdges : Prop :=
  (∀ b : Bool, sendBit b =
    [.set .wr false, .delayUs 2, .set .data b, .delayUs 2, .set .wr true, .delayUs 2]) ∧
  frameBegin = [.set .cs false, .delayUs 2] ∧
  frameEnd = [.set .cs true, .delayUs 2] ∧
  (∀ (b : Bool) (s : State), (performAll (sendBit b) s).bus.lvl = ⟨s.bus.lvl.cs, true, b⟩ ∧
    (performAll (sendBit b) s).pinTrace = s.pinTrace ++ sendBit b) ∧
  (∀ s : State, (performAll frameBegin s).bus.lvl = ⟨false, s.bus.lvl.wr, s.bus.lvl.data⟩ ∧
    (performAll frameBegin s).pinTrace = s.pinTrace ++ frameBegin) ∧
  (∀ s : State, (performAll frameEnd s).bus.lvl = ⟨true, s.bus.lvl.wr, s.bus.lvl.data⟩ ∧
    (performAll frameEnd s).pinTrace = s.pinTrace ++ frameEnd)

/-- `send_bits(value, n)` is the bit cells of bits `n-1` down to 0, so bits at or above `n` are not sent; WR ends high and
DATA at bit 0 (R82, R43). A receiver with a frame open samples exactly those bits, most significant first: that it samples at
the rising edge of WR is presumed (R54, log 17). -/
def Obligations.SendBitsIsMostSignificantFirst : Prop :=
  ∀ (value n : Nat),
    sendBits value n = (List.range n).reverse.flatMap (fun i => sendBit (value.testBit i)) ∧
    (sendBits value n).length = 6 * n ∧
    ∀ b : Bus,
      (0 < n → (b.observeAll (sendBits value n)).lvl = ⟨b.lvl.cs, true, value.testBit 0⟩) ∧
      ∀ bits : List Bool, b.rxBits = some bits →
        (b.observeAll (sendBits value n)).rxBits = some (bits ++ (List.range n).reverse.map value.testBit)

/-! ### Framing operations -/

/-- `send_command(c)` from a wire at rest: the event list of R90, one frame `Cmd(c)` received, DATA left at `c[0]`, the
flags as the receiver records `c`, nothing else changed. -/
def Obligations.SendCommandSendsItsFrame : Prop :=
  ∀ (c : BitVec 8) (s : State), s.bus.Idle →
    exec (.sendCommand c) s = .next
      { s with
        pinTrace := s.pinTrace ++ (frameBegin ++ sendBits 0b100 3 ++ sendBits c.toNat 8 ++ frameEnd)
        bus :=
          { s.bus with
            lvl := ⟨true, true, c.getLsbD 0⟩
            frames := s.bus.frames ++ [.cmd c]
            controller := s.bus.controller.receive c } }

/-- A command byte that is none of the eleven codes changes no flag and no memory (R30). -/
def Obligations.UnnamedCommandChangesNoFlag : Prop :=
  ∀ (c : BitVec 8) (s : State), s.bus.Idle → ¬ IsNamedCode c →
    ∃ t, exec (.sendCommand c) s = .next t ∧ t.bus.controller = s.bus.controller ∧ t.bus.mem = s.bus.mem ∧
      t.bus.frames = s.bus.frames ++ [.cmd c]

/-- `write_memory(a, d)` from a wire at rest: the event list of R91, one frame `Write(a, d)` received, DATA left at `d[0]`,
nothing changed but `MEM`; for `a` a cell, it holds `d` (unless `MEM` was poisoned before) and every other cell is as before. -/
def Obligations.WriteMemoryWritesItsCell : Prop :=
  ∀ (a : BitVec 6) (d : Nibble) (s : State), s.bus.Idle →
    ∃ mem, exec (.writeMemory a d) s = .next
      { s with
        pinTrace := s.pinTrace ++
          (frameBegin ++ sendBits 0b101 3 ++ sendBits a.toNat 6 ++ sendBits d.toNat 4 ++ frameEnd)
        bus :=
          { s.bus with
            lvl := ⟨true, true, d.getLsbD 0⟩
            frames := s.bus.frames ++ [.write a d]
            mem := mem } } ∧
      (a.toNat < 32 → s.bus.mem ≠ .poisoned → mem ≠ .poisoned ∧ mem.read a.toNat = some d) ∧
      (a.toNat < 32 → ∀ x, x ≠ a.toNat → mem.read x = s.bus.mem.read x)

/-- `write_memory(a, d)` with `a` in 32..63, where no cell exists: the frame goes out all the same and `MEM` is poisoned,
so that no cell has a known value (R47, R53). -/
def Obligations.WriteOutsideMemoryPoisons : Prop :=
  ∀ (a : BitVec 6) (d : Nibble) (s : State), s.bus.Idle → 32 ≤ a.toNat →
    ∃ t, exec (.writeMemory a d) s = .next t ∧ t.bus.frames = s.bus.frames ++ [.write a d] ∧
      t.pinTrace = s.pinTrace ++ writeMemoryEvents a d ∧ t.bus.mem = .poisoned ∧
      t.bus.controller = s.bus.controller ∧ ∀ x, t.bus.mem.read x = none

/-- Each of the eleven named commands from a wire at rest, the flags not poisoned: its frame, the one flag of R92, `MEM` and
everything else as before. -/
def Obligations.NamedCommandsRecordTheirFlag : Prop :=
  ∀ (n : SysCommand) (s : State) (f : Flags), s.bus.Idle → s.bus.controller = .flags f →
    exec (instrOfCommand n) s = .next
      { s with
        pinTrace := s.pinTrace ++ sendCommandEvents (Config.cmdCode n)
        bus :=
          { s.bus with
            lvl := ⟨true, true, (Config.cmdCode n).getLsbD 0⟩
            frames := s.bus.frames ++ [.cmd (Config.cmdCode n)]
            controller := .flags (match n with
              | .sysDis => { f with cSys := false }
              | .sysEn => { f with cSys := true }
              | .lcdOff => { f with cLcd := false }
              | .lcdOn => { f with cLcd := true }
              | .osc => { f with cOsc := true }
              | .biasCom k => { f with cBias := some k }) } }

/-- The thirteen framing operations complete in every state, whatever the lines and `ST`: they put exactly their own wire
word's frame on the lines, leave the wire at rest, and change no driver field, no temporary, no `RESULT`, no direction
(R90, R91). -/
def Obligations.FramingOperationsAlwaysComplete : Prop :=
  ∀ (i : Instr) (s : State), ¬ IsHostOperation i →
    ∃ f t, encode i = .frame (bitsOfFrame f) ∧ exec i s = .next t ∧ t.pinTrace = s.pinTrace ++ frameEvents f ∧
      t.bus.Idle ∧ t.bus.dir = s.bus.dir ∧ DriverFrame s t ∧ t.temps = s.temps ∧ t.result = s.result

/-! ### Initialization -/

/-- INIT_CFG `k`, and INIT with the default setting, succeed when `ST` is not READY and all six answers are true: the whole
next state, the flags not poisoned before (R35, R93). -/
def Obligations.InitializationSucceeds : Prop :=
  ∀ s : State, s.st ≠ .ready → (∀ l, s.readyIn.get l = true) → (∀ l, s.cfgokIn.get l = true) →
    s.bus.controller ≠ .poisoned →
    (∀ (k : BitVec 3) (hk : k.toNat < 6), exec (.initCfg k) s = .next (afterInit ⟨k.toNat, hk⟩ s)) ∧
    exec .init s = .next (afterInit Config.defaultBiasCom s)

/-- INIT is INIT_CFG with the default setting, in every state (R94). -/
def Obligations.InitUsesTheDefaultSetting : Prop :=
  ∀ s : State, exec .init s = exec (.initCfg (BitVec.ofNat 3 Config.defaultBiasCom.val)) s

/-- A failing initialization takes DEVICE_NOT_READY at the first false answer, in the order of R142: `ST` FAILED, `RESULT`
the error, `CFG` the operand, only the `Cfg` events before the failing check, no command frame, nothing else changed
(R141, R143). -/
def Obligations.FailedInitTakesDeviceNotReady : Prop :=
  ∀ (s : State) (events : List PinEvent), s.st ≠ .ready → failedInitEvents s.readyIn s.cfgokIn = some events →
    (∀ (k : BitVec 3) (hk : k.toNat < 6), exec (.initCfg k) s = .next (afterFailedInit ⟨k.toNat, hk⟩ events s)) ∧
    exec .init s = .next (afterFailedInit Config.defaultBiasCom events s)

/-- Acceptance by `ST` (R97, R98): INIT and a legal INIT_CFG have no meaning while READY and are accepted, with a next state,
in RESET and in FAILED (the retry); the seven display operations have no meaning while not READY. -/
def Obligations.AcceptanceByLifeCycle : Prop :=
  (∀ s : State, s.st = .ready → exec .init s = .refused .alreadyInitialised) ∧
  (∀ (k : BitVec 3) (s : State), k.toNat < 6 → s.st = .ready → exec (.initCfg k) s = .refused .alreadyInitialised) ∧
  (∀ s : State, s.st ≠ .ready → ∃ t, exec .init s = .next t) ∧
  (∀ (k : BitVec 3) (s : State), k.toNat < 6 → s.st ≠ .ready → ∃ t, exec (.initCfg k) s = .next t) ∧
  (∀ (i : Instr) (s : State), IsDisplayOperation i → s.st ≠ .ready → exec i s = .refused .notReady)

/-! ### Raw memory operations -/

/-- CLEAR (R95). While READY, the wire at rest: 32 write frames of 0 in ascending order, 2624 events, every cell 0 (unless
`MEM` was poisoned), `RESULT` OK, temporaries and flags as before. While not READY it is refused. -/
def Obligations.ClearZeroesEveryCell : Prop :=
  (∀ s : State, s.st = .ready → s.bus.Idle →
    ∃ t, exec .clear s = .next t ∧
      WroteFrames ((List.range 32).map fun a => .write (BitVec.ofNat 6 a) 0) s t ∧ DriverFrame s t ∧
      t.pinTrace.length = s.pinTrace.length + 2624 ∧
      t.result = .ok ∧ t.temps = s.temps ∧ t.bus.lvl.data = false ∧
      (s.bus.mem ≠ .poisoned → ∀ a, a < 32 → t.bus.mem.read a = some 0) ∧
      ∀ a, 32 ≤ a → t.bus.mem.read a = s.bus.mem.read a) ∧
  ∀ s : State, s.st ≠ .ready → exec .clear s = .refused .notReady

/-- WRITE_RAW (R96). While READY, the wire at rest: the whole next state but `MEM`, of which the cell holds the nibble (unless
poisoned) and every other cell is as before. While not READY it is refused. -/
def Obligations.WriteRawWritesItsCell : Prop :=
  ∀ (addr : BitVec 5) (nibble : Nibble) (s : State),
    (s.st = .ready → s.bus.Idle →
      ∃ mem, exec (.writeRaw addr nibble) s = .next
        { s with
          result := .ok
          pinTrace := s.pinTrace ++ writeMemoryEvents (addr.setWidth 6) nibble
          bus :=
            { s.bus with
              lvl := ⟨true, true, nibble.getLsbD 0⟩
              frames := s.bus.frames ++ [.write (addr.setWidth 6) nibble]
              mem := mem } } ∧
        (s.bus.mem ≠ .poisoned → mem.read addr.toNat = some nibble) ∧
        ∀ x, x ≠ addr.toNat → mem.read x = s.bus.mem.read x) ∧
    (s.st ≠ .ready → exec (.writeRaw addr nibble) s = .refused .notReady)

/-! ### Segment table and digit renderer -/

/-- The Segment Encoding Table on every port value (R68, R69, R110). The values are the spec's default table, from general
knowledge (log 15). -/
def Obligations.SegmentTableOnEveryPortValue : Prop :=
  ∀ v : BitVec 8, encodeSegment (digitOfPort v) =
    (([0x3F, 0x06, 0x5B, 0x4F, 0x66, 0x6D, 0x7D, 0x07, 0x7F, 0x6F, 0x77, 0x7C, 0x39, 0x5E, 0x79, 0x71, 0x00, 0x40] :
      List Pattern)[v.toNat]?).getD 0x00

/-- The decimal-point flag sets bit 7 and changes no other bit, so it travels in bit 3 of the high nibble (R111). -/
def Obligations.DecimalPointIsBitSeven : Prop :=
  ∀ (pat : Pattern) (dp : Bool),
    withDp pat dp = (if dp then pat ||| 0x80 else pat) ∧
    (withDp pat dp).getLsbD 7 = (pat.getLsbD 7 || dp) ∧
    (∀ i, i < 7 → (withDp pat dp).getLsbD i = pat.getLsbD i) ∧
    lowNibble (withDp pat dp) = lowNibble pat ∧
    (highNibble (withDp pat dp)).getLsbD 3 = (pat.getLsbD 7 || dp)

/-- The position-to-address mapper: positions 0 to 5 map to cells `2p` and `2p + 1`, all below 12 (R112). -/
def Obligations.MapperStaysInTheDisplay : Prop :=
  ∀ p : Nat, p < 6 → (cellOfPosition p).toNat = 2 * p ∧ (cellOfPosition p + 1).toNat = 2 * p + 1 ∧
    (cellOfPosition p).toNat ≤ 10 ∧ (cellOfPosition p + 1).toNat ≤ 11

/-- DISPLAY_DIGIT at a position 0..5 while READY, the wire at rest: two write frames, low nibble to cell `2p`, then high
nibble to cell `2p+1`; the two cells recombine to the pattern with its decimal point (unless `MEM` was poisoned); every
other cell as before (R113, R114). PAT and ADDR hold the pattern and `2p` afterwards, the other temporaries what they held:
that temporaries outlive the operation is the model's choice (log 6). -/
def Obligations.DisplayDigitShowsItsPattern : Prop :=
  ∀ (position digitValue : BitVec 8) (dp : Bool) (s : State), s.st = .ready → s.bus.Idle → position.toNat < 6 →
    let pat := withDp (encodeSegment (digitOfPort digitValue)) dp
    ∃ t, exec (.displayDigit position digitValue dp) s = .next t ∧
      WroteFrames (patternWrites position.toNat pat) s t ∧ DriverFrame s t ∧ t.result = .ok ∧
      t.temps = { s.temps with pat := pat, addr := BitVec.ofNat 6 (2 * position.toNat) } ∧
      (s.bus.mem ≠ .poisoned → ∃ high low : Nibble, t.bus.mem.read (2 * position.toNat) = some low ∧
        t.bus.mem.read (2 * position.toNat + 1) = some high ∧ high ++ low = pat) ∧
      ∀ x, x ≠ 2 * position.toNat → x ≠ 2 * position.toNat + 1 → t.bus.mem.read x = s.bus.mem.read x

/-- DISPLAY_DIGIT at a position of 6 or more is a no-op that reports OK: no pin event, no frame, no other change
(R113, R146). -/
def Obligations.DisplayDigitBeyondTheDisplayIsNoOp : Prop :=
  ∀ (position digitValue : BitVec 8) (dp : Bool) (s : State), s.st = .ready → 6 ≤ position.toNat →
    exec (.displayDigit position digitValue dp) s = .next { s with result := .ok }

/-! ### Formatters -/

/-- DISPLAY_NUMBER (R121). While READY, the wire at rest, for every operand: it shows MINUS for a negative value, the leading
zeros if asked, the low-order digits of the exact magnitude, BLANK to the right; and what it leaves in the temporaries (the
final MAG and POS are the pseudocode's; that temporaries outlive the operation is the model's choice, log 6). While not READY
it is refused. -/
def Obligations.DisplayNumberShowsTheValue : Prop :=
  ∀ (value : BitVec 32) (leadingZeros : Bool) (s : State),
    (s.st = .ready → s.bus.Idle →
      let n := numberCount value
      let m := value.toInt.natAbs
      let items := filled (numberShown value leadingZeros)
      ∃ t, exec (.displayNumber value leadingZeros) s = .next t ∧ Shows items s t ∧
        t.temps.neg = decide (value.toInt < 0) ∧ t.temps.mag = BitVec.ofNat 32 (m / 10 ^ n) ∧
        t.temps.n = BitVec.ofNat 3 n ∧ t.temps.pos = BitVec.ofNat 4 items.length ∧ t.temps.dec = s.temps.dec ∧
        ∀ (i : Nat) (hi : i < 6),
          t.temps.dig[i] = if i < n then BitVec.ofNat 4 (m / 10 ^ i % 10) else s.temps.dig[i]) ∧
    (s.st ≠ .ready → exec (.displayNumber value leadingZeros) s = .refused .notReady)

/-- The most negative value -2147483648 shows MINUS, 4, 8, 3, 6, 4 (R122, V-N11; segment values of log 15). -/
def Obligations.MostNegativeNumberIsExact : Prop :=
  ∀ s : State, s.st = .ready → s.bus.Idle →
    ∃ t, exec (.displayNumber 0x80000000 false) s = .next t ∧
      t.bus.frames = s.bus.frames ++ [.write 0 0x0, .write 1 0x4, .write 2 0x6, .write 3 0x6, .write 4 0xF, .write 5 0x7,
        .write 6 0xF, .write 7 0x4, .write 8 0xD, .write 9 0x7, .write 10 0x6, .write 11 0x6]

/-- DISPLAY_FLOAT while READY, the wire at rest, for every value of the domain and every `decimals`, whatever the scaling
function is: it shows the sign, the kept digits with the point before the last `DEC`, BLANK to the right; and what it
leaves in the temporaries (R124), which outlive the operation by the model's choice (log 6). The two reading switches have
their normative values (log 16). -/
def Obligations.DisplayFloatShowsTheValue : Prop :=
  ∀ (value : BitVec 32) (decimals : BitVec 8) (s : State), s.st = .ready → s.bus.Idle →
    (value.setWidth 31 : BitVec 31).toNat ≤ 0x4A03126E →
    let n := floatCount value decimals
    let m := floatKept value decimals
    let items := filled (floatShown value decimals)
    ∃ t, exec (.displayFloat value decimals) s = .next t ∧ Shows items s t ∧
      t.temps.neg = decide (value.msb = true ∧ (value.setWidth 31 : BitVec 31) ≠ 0#31) ∧
      t.temps.mag = BitVec.ofNat 32 (m / 10 ^ n) ∧ t.temps.n = BitVec.ofNat 3 n ∧
      t.temps.pos = BitVec.ofNat 4 items.length ∧
      t.temps.dec = BitVec.ofNat 2 (max 0 (min 3 decimals.toInt)).toNat ∧
      ∀ (i : Nat) (hi : i < 6),
        t.temps.dig[i] = if i < n then BitVec.ofNat 4 (m / 10 ^ i % 10) else s.temps.dig[i]

/-- While READY, DISPLAY_FLOAT has no meaning exactly on the data R126 shuts out: magnitude bits above those of 2147483.5,
the largest binary32 value below 2147483.648, so also every infinity and NaN (V-F21); on all others it completes. -/
def Obligations.FloatOutsideDomainIsRefused : Prop :=
  ∀ (value : BitVec 32) (decimals : BitVec 8) (s : State), s.st = .ready →
    (exec (.displayFloat value decimals) s = .refused .floatOutsideDomain ↔
      0x4A03126E < (value.setWidth 31 : BitVec 31).toNat) ∧
    ((value.setWidth 31 : BitVec 31).toNat ≤ 0x4A03126E →
      ∃ t, exec (.displayFloat value decimals) s = .next t ∧ t.result = .ok)

/-- `decimals` is clamped into 0..3 at both ends (R124 step 1, R146). -/
def Obligations.FloatDecimalsAreClamped : Prop :=
  ∀ (value : BitVec 32) (decimals : BitVec 8) (s : State),
    (decimals.toInt < 0 → exec (.displayFloat value decimals) s = exec (.displayFloat value 0) s) ∧
    (3 < decimals.toInt → exec (.displayFloat value decimals) s = exec (.displayFloat value 3) s)

/-- The source's two pinned float examples, for any scaling function that agrees with a candidate on the datum: 3.14159
with 2 decimals shows `3.14`, -98.765 with 1 decimal shows `-98.7` (S6, S7); the literal reading is V-F12. -/
def Obligations.PinnedFloatExamples : Prop :=
  scaleExact 0x40490FD0 = 3141 ∧ scaleF32 0x40490FD0 = 3141 ∧
  scaleExact 0x42C587AE = 98764 ∧ scaleF32 0x42C587AE = 98765 ∧
  ∀ scale : BitVec 31 → BitVec 32,
    (scale 0x40490FD0 = 3141 →
      floatItems scale true 0 0x40490FD0 2 =
        [(.digit 3, true), (.digit 1, false), (.digit 4, false), (.blank, false), (.blank, false), (.blank, false)] ∧
      floatItems scale false 0 0x40490FD0 2 =
        [(.digit 3, false), (.digit 1, true), (.digit 4, false), (.digit 1, false), (.blank, false), (.blank, false)]) ∧
    (scale 0x42C587AE = 98764 ∨ scale 0x42C587AE = 98765 →
      floatItems scale true 0 0xC2C587AE 1 =
        [(.minus, false), (.digit 9, false), (.digit 8, true), (.digit 7, false), (.blank, false), (.blank, false)])

/-- The two candidates for SCALE1000 (R125): equal where the product is a binary32 value; `SCALE_F32` is `SCALE_EXACT` or
one more while the product is below 2^24; `SCALE_EXACT` never falls as the magnitude grows. -/
def Obligations.ScaleCandidatesAgree : Prop :=
  (∀ (m : BitVec 31) (q e : Nat), q < 2 ^ 24 → floatTimes2p149 m * 1000 = q * 2 ^ e → scaleF32 m = scaleExact m) ∧
  (∀ m : BitVec 31, floatTimes2p149 m * 1000 < 2 ^ 24 * 2 ^ 149 →
    scaleF32 m = scaleExact m ∨ scaleF32 m = scaleExact m + 1) ∧
  (∀ m m' : BitVec 31, m.toNat ≤ m'.toNat → scaleExact m ≤ scaleExact m')

/-- DISPLAY_HEX (R128). While READY, the wire at rest: the six nibbles, most significant first, none blank; temporaries but
PAT and ADDR as before. While not READY it is refused. -/
def Obligations.DisplayHexShowsSixNibbles : Prop :=
  ∀ (value : BitVec 24) (s : State),
    (s.st = .ready → s.bus.Idle →
      ∃ t, exec (.displayHex value) s = .next t ∧
        Shows [(.digit (value.extractLsb' 20 4), false), (.digit (value.extractLsb' 16 4), false),
          (.digit (value.extractLsb' 12 4), false), (.digit (value.extractLsb' 8 4), false),
          (.digit (value.extractLsb' 4 4), false), (.digit (value.extractLsb' 0 4), false)] s t ∧
        ∃ pat addr, t.temps = { s.temps with pat := pat, addr := addr }) ∧
    (s.st ≠ .ready → exec (.displayHex value) s = .refused .notReady)

/-- TEST_PATTERN while READY, the wire at rest: ten steps, each showing one digit at all six positions and then waiting;
at the end every position shows 9 (unless `MEM` was poisoned), cells from 12 on as before (R129). -/
def Obligations.TestPatternCyclesTheDigits : Prop :=
  ∀ s : State, s.st = .ready → s.bus.Idle →
    let stepFrames (d : Nat) : List Frame :=
      (List.range 6).flatMap fun p => patternWrites p (encodeSegment (.digit (BitVec.ofNat 4 d)))
    ∃ t, exec .testPattern s = .next t ∧
      t.bus.frames = s.bus.frames ++ (List.range 10).flatMap stepFrames ∧
      t.pinTrace = s.pinTrace ++
        (List.range 10).flatMap (fun d => (stepFrames d).flatMap frameEvents ++ [.delayMs Config.testStepMs]) ∧
      t.bus.Idle ∧ t.bus.dir = s.bus.dir ∧ t.bus.controller = s.bus.controller ∧ DriverFrame s t ∧ t.result = .ok ∧
      (∃ pat addr, t.temps = { s.temps with pat := pat, addr := addr }) ∧
      (s.bus.mem ≠ .poisoned → ∀ p, p < 6 →
        t.bus.mem.read (2 * p) = some 0xF ∧ t.bus.mem.read (2 * p + 1) = some 0x6) ∧
      ∀ a, 12 ≤ a → t.bus.mem.read a = s.bus.mem.read a

/-- Each decimal, float or hex request, by its operands alone, has twelve nibbles: from every READY state with the wire at
rest the frames it adds are `Write(0, _)` to `Write(11, _)` in order with those nibbles, afterwards cells 0 to 11 hold exactly
them whatever they held before (unless `MEM` was poisoned), and cells from 12 on keep what they held (R131, R166). -/
def Obligations.FormattersWriteTwelveCellsInOrder : Prop :=
  ∀ i : Instr,
    ((∃ value lz, i = .displayNumber value lz) ∨ (∃ value, i = .displayHex value) ∨
      ∃ value decimals, i = .displayFloat value decimals ∧ (value.setWidth 31 : BitVec 31).toNat ≤ 0x4A03126E) →
    ∃ nibbles : List Nibble, nibbles.length = 12 ∧
      ∀ s : State, s.st = .ready → s.bus.Idle →
        ∃ t, exec i s = .next t ∧
          t.bus.frames = s.bus.frames ++ nibbles.zipIdx.map (fun p => .write (BitVec.ofNat 6 p.2) p.1) ∧
          (s.bus.mem ≠ .poisoned → ∀ a, a < 12 → t.bus.mem.read a = nibbles[a]?) ∧
          ∀ a, 12 ≤ a → t.bus.mem.read a = s.bus.mem.read a

/-! ### The whole machine -/

/-- The display operations complete in every READY state, whatever the wire: `RESULT` OK and no driver field, no direction
written (R97, R146); DISPLAY_FLOAT on its domain. -/
def Obligations.DisplayOperationsAlwaysComplete : Prop :=
  ∀ (i : Instr) (s : State), IsDisplayOperation i → s.st = .ready →
    (∀ value decimals, i = .displayFloat value decimals → (value.setWidth 31 : BitVec 31).toNat ≤ 0x4A03126E) →
    ∃ t, exec i s = .next t ∧ t.result = .ok ∧ DriverFrame s t ∧ t.bus.dir = s.bus.dir

/-- No hidden state: two runs of one operation that are both accepted append the same pin events, whatever `MEM`, the flags,
the levels, `CFG`, the temporaries and the past were; for INIT and INIT_CFG if the platform's six answers are the same, for
every other operation whatever they are (R32). -/
def Obligations.PinEventsDependOnOperandsOnly : Prop :=
  ∀ (i : Instr) (s s' t t' : State), exec i s = .next t → exec i s' = .next t' →
    (i = .init ∨ (∃ k, i = .initCfg k) → s.readyIn = s'.readyIn ∧ s.cfgokIn = s'.cfgokIn) →
    ∃ events, t.pinTrace = s.pinTrace ++ events ∧ t'.pinTrace = s'.pinTrace ++ events

/-- How many pin events each operation performs (R170): 284 for a successful initialization and at most 2 for a failed one;
the others by their frames and waits. -/
def Obligations.PinEventCounts : Prop :=
  ∀ (i : Instr) (s t : State), exec i s = .next t →
    match i with
    | .init | .initCfg _ =>
      (t.result = .ok → t.pinTrace.length = s.pinTrace.length + 284) ∧
      (t.result ≠ .ok → t.pinTrace.length ≤ s.pinTrace.length + 2)
    | .clear => t.pinTrace.length = s.pinTrace.length + 2624
    | .writeRaw _ _ | .writeMemory _ _ => t.pinTrace.length = s.pinTrace.length + 82
    | .displayDigit position _ _ => t.pinTrace.length = s.pinTrace.length + if position.toNat < 6 then 164 else 0
    | .displayNumber _ _ | .displayFloat _ _ | .displayHex _ => t.pinTrace.length = s.pinTrace.length + 984
    | .testPattern => t.pinTrace.length = s.pinTrace.length + 9850
    | .sendCommand _ | .sendCommandSysDis | .sendCommandSysEn | .sendCommandLcdOff | .sendCommandLcdOn
    | .sendCommandOsc | .sendCommandBiasCom0 | .sendCommandBiasCom1 | .sendCommandBiasCom2 | .sendCommandBiasCom3
    | .sendCommandBiasCom4 | .sendCommandBiasCom5 => t.pinTrace.length = s.pinTrace.length + 70

/-- The outcome of a host operation that answers a next state is one of three (R156): completed, `ST = READY` and
`RESULT = OK`; DEVICE_NOT_READY, by INIT or INIT_CFG only, `ST = FAILED`, no frame; BAD_REQUEST, no pin event, `ST`
unchanged. -/
def Obligations.HostOperationOutcomes : Prop :=
  ∀ (i : Instr) (s t : State), IsHostOperation i → exec i s = .next t →
    (t.st = .ready ∧ t.result = .ok) ∨
    (t.st = .failed ∧ t.result = .errDeviceNotReady ∧ t.bus.frames = s.bus.frames ∧ ¬ IsDisplayOperation i) ∨
    (t = { s with result := .errBadRequest })

/-- The life cycle (R22, R23, R160): no step leaves READY or changes `CFG` while READY, and no step returns to RESET; only
INIT and INIT_CFG write `ST` and `CFG`. -/
def Obligations.LifeCycleTransitions : Prop :=
  (∀ s t : State, step s = .next t →
    (s.st = .ready → t.st = .ready ∧ t.cfg = s.cfg) ∧ (s.st ≠ .reset → t.st ≠ .reset)) ∧
  (∀ (i : Instr) (s t : State), exec i s = .next t → i ≠ .init → (∀ k, i ≠ .initCfg k) →
    t.st = s.st ∧ t.cfg = s.cfg)

/-- No host operation ever sends system-disable or LCD-off: neither frame is among those it adds (R99). -/
def Obligations.HostOperationsNeverSwitchOff : Prop :=
  ∀ (i : Instr) (s t : State), IsHostOperation i → exec i s = .next t → (s.st = .ready → s.bus.Idle) →
    ∃ sent, t.bus.frames = s.bus.frames ++ sent ∧
      .cmd (Config.cmdCode .sysDis) ∉ sent ∧ .cmd (Config.cmdCode .lcdOff) ∉ sent

/-- Both traces are append-only under every step (R31). -/
def Obligations.TracesOnlyGrow : Prop :=
  ∀ s t : State, step s = .next t → s.pinTrace <+: t.pinTrace ∧ s.bus.frames <+: t.bus.frames

/-- In a trace made of blocks, every `Set` is followed at once by one delay quantum, so that no two `Set` events are
adjacent (R85(e)). -/
def Obligations.EveryEdgeIsDelayed : Prop :=
  ∀ s : State, TraceOfBlocks s → edgesDelayed s.pinTrace = true

/-! ### Invariants -/

/-- The invariants hold at reset. The form of `MEM` and the receiver at reset are the model's (log 5, 8, 20, 25). -/
def Obligations.InvariantsHoldAtReset : Prop :=
  MemoryCanonical State.reset ∧ ReadyMeansAtRest State.reset ∧ BusFollowsTrace State.reset ∧ TraceOfBlocks State.reset

/-- Every step keeps `MEM` in its canonical form. -/
def Obligations.StepKeepsMemoryCanonical : Prop :=
  ∀ s t : State, MemoryCanonical s → step s = .next t → MemoryCanonical t

/-- Every step keeps the wire at rest and the lines outputs while READY (R85(a)). -/
def Obligations.StepKeepsReadyLinesAtRest : Prop :=
  ∀ s t : State, ReadyMeansAtRest s → step s = .next t → ReadyMeansAtRest t

/-- Every step keeps the lines, the receiver, `MEM`, the flags and `FRAMES` equal to what the reference receiver makes of
`PINTRACE` (R31, R53, R54). -/
def Obligations.StepKeepsBusFollowingTrace : Prop :=
  ∀ s t : State, BusFollowsTrace s → step s = .next t → BusFollowsTrace t

/-- Every step keeps `PINTRACE` a sequence of whole blocks: line configurations, waits, complete frames; no frame is cut
short or interleaved with another (R49, R55). -/
def Obligations.StepKeepsTraceOfBlocks : Prop :=
  ∀ s t : State, TraceOfBlocks s → step s = .next t → TraceOfBlocks t

/-- While READY, `FRAMES` grows by exactly the frames whose events `PINTRACE` grew by: what the driver puts on the wire is
what the receiver decodes, in order (R49, R54). -/
def Obligations.ReadyFramesAreTheFramesOnTheWire : Prop :=
  ∀ s t : State, s.st = .ready → s.bus.Idle → step s = .next t →
    ∃ blocks : List TraceBlock, t.pinTrace = s.pinTrace ++ blocks.flatMap TraceBlock.events ∧
      t.bus.frames = s.bus.frames ++ blocks.filterMap (fun b => match b with
        | .frame f => some f
        | .cfg _ => none
        | .wait _ => none)

/-- Poison stays: no step makes a poisoned `MEM` or poisoned flags known again (the model's reading, log 9). -/
def Obligations.PoisonStays : Prop :=
  ∀ s t : State, step s = .next t →
    (s.bus.mem = .poisoned → t.bus.mem = .poisoned) ∧ (s.bus.controller = .poisoned → t.bus.controller = .poisoned)
end

