-- ==== Sys2Proof/Laws/State.lean ====
section
/-! SUPPORT. One lemma per field per update of the state, so that no later proof unfolds a record update. -/

namespace Sys2Proof

variable {α : Type}

@[simp] theorem LineMap.get_cs (m : LineMap α) : m.get .cs = m.cs := rfl
@[simp] theorem LineMap.get_wr (m : LineMap α) : m.get .wr = m.wr := rfl
@[simp] theorem LineMap.get_data (m : LineMap α) : m.get .data = m.data := rfl
@[simp] theorem LineMap.set_cs (m : LineMap α) (v : α) : m.set .cs v = ⟨v, m.wr, m.data⟩ := rfl
@[simp] theorem LineMap.set_wr (m : LineMap α) (v : α) : m.set .wr v = ⟨m.cs, v, m.data⟩ := rfl
@[simp] theorem LineMap.set_data (m : LineMap α) (v : α) : m.set .data v = ⟨m.cs, m.wr, v⟩ := rfl

end Sys2Proof

namespace Sys2Proof.Machine

/-! ### performAll -/

section
variable (events : List PinEvent) (s : State)

@[simp] theorem performAll_st : (performAll events s).st = s.st := rfl
@[simp] theorem performAll_cfg : (performAll events s).cfg = s.cfg := rfl
@[simp] theorem performAll_result : (performAll events s).result = s.result := rfl
@[simp] theorem performAll_busy : (performAll events s).busy = s.busy := rfl
@[simp] theorem performAll_requests : (performAll events s).requests = s.requests := rfl
@[simp] theorem performAll_readyIn : (performAll events s).readyIn = s.readyIn := rfl
@[simp] theorem performAll_cfgokIn : (performAll events s).cfgokIn = s.cfgokIn := rfl
@[simp] theorem performAll_temps : (performAll events s).temps = s.temps := rfl
@[simp] theorem performAll_bus : (performAll events s).bus = s.bus.observeAll events := rfl
@[simp] theorem performAll_pinTrace : (performAll events s).pinTrace = s.pinTrace ++ events := rfl

end

/-! ### complete -/

section
variable (s : State)

@[simp] theorem complete_st : (complete s).st = s.st := rfl
@[simp] theorem complete_cfg : (complete s).cfg = s.cfg := rfl
@[simp] theorem complete_result : (complete s).result = .ok := rfl
@[simp] theorem complete_busy : (complete s).busy = s.busy := rfl
@[simp] theorem complete_requests : (complete s).requests = s.requests := rfl
@[simp] theorem complete_readyIn : (complete s).readyIn = s.readyIn := rfl
@[simp] theorem complete_cfgokIn : (complete s).cfgokIn = s.cfgokIn := rfl
@[simp] theorem complete_temps : (complete s).temps = s.temps := rfl
@[simp] theorem complete_bus : (complete s).bus = s.bus := rfl
@[simp] theorem complete_pinTrace : (complete s).pinTrace = s.pinTrace := rfl

/-! ### The two error conditions -/

@[simp] theorem takeDeviceNotReady_st : (takeDeviceNotReady s).st = .failed := rfl
@[simp] theorem takeDeviceNotReady_cfg : (takeDeviceNotReady s).cfg = s.cfg := rfl
@[simp] theorem takeDeviceNotReady_result : (takeDeviceNotReady s).result = .errDeviceNotReady := rfl
@[simp] theorem takeDeviceNotReady_busy : (takeDeviceNotReady s).busy = s.busy := rfl
@[simp] theorem takeDeviceNotReady_requests : (takeDeviceNotReady s).requests = s.requests := rfl
@[simp] theorem takeDeviceNotReady_readyIn : (takeDeviceNotReady s).readyIn = s.readyIn := rfl
@[simp] theorem takeDeviceNotReady_cfgokIn : (takeDeviceNotReady s).cfgokIn = s.cfgokIn := rfl
@[simp] theorem takeDeviceNotReady_temps : (takeDeviceNotReady s).temps = s.temps := rfl
@[simp] theorem takeDeviceNotReady_bus : (takeDeviceNotReady s).bus = s.bus := rfl
@[simp] theorem takeDeviceNotReady_pinTrace : (takeDeviceNotReady s).pinTrace = s.pinTrace := rfl

@[simp] theorem takeBadRequest_st : (takeBadRequest s).st = s.st := rfl
@[simp] theorem takeBadRequest_cfg : (takeBadRequest s).cfg = s.cfg := rfl
@[simp] theorem takeBadRequest_result : (takeBadRequest s).result = .errBadRequest := rfl
@[simp] theorem takeBadRequest_busy : (takeBadRequest s).busy = s.busy := rfl
@[simp] theorem takeBadRequest_requests : (takeBadRequest s).requests = s.requests := rfl
@[simp] theorem takeBadRequest_readyIn : (takeBadRequest s).readyIn = s.readyIn := rfl
@[simp] theorem takeBadRequest_cfgokIn : (takeBadRequest s).cfgokIn = s.cfgokIn := rfl
@[simp] theorem takeBadRequest_temps : (takeBadRequest s).temps = s.temps := rfl
@[simp] theorem takeBadRequest_bus : (takeBadRequest s).bus = s.bus := rfl
@[simp] theorem takeBadRequest_pinTrace : (takeBadRequest s).pinTrace = s.pinTrace := rfl

end

/-! ### accept -/

section
variable (p : Presented) (rest : List Presented) (s : State)

@[simp] theorem accept_st : (accept p rest s).st = s.st := rfl
@[simp] theorem accept_cfg : (accept p rest s).cfg = s.cfg := rfl
@[simp] theorem accept_result : (accept p rest s).result = s.result := rfl
@[simp] theorem accept_busy : (accept p rest s).busy = true := rfl
@[simp] theorem accept_requests : (accept p rest s).requests = rest := rfl
@[simp] theorem accept_readyIn : (accept p rest s).readyIn = p.readyIn := rfl
@[simp] theorem accept_cfgokIn : (accept p rest s).cfgokIn = p.cfgokIn := rfl
@[simp] theorem accept_temps : (accept p rest s).temps = s.temps := rfl
@[simp] theorem accept_bus : (accept p rest s).bus = s.bus := rfl
@[simp] theorem accept_pinTrace : (accept p rest s).pinTrace = s.pinTrace := rfl

end

/-! ### Temporaries -/

section
variable (f : Temps → Temps) (s : State)

@[simp] theorem updateTemps_st : (updateTemps f s).st = s.st := rfl
@[simp] theorem updateTemps_cfg : (updateTemps f s).cfg = s.cfg := rfl
@[simp] theorem updateTemps_result : (updateTemps f s).result = s.result := rfl
@[simp] theorem updateTemps_busy : (updateTemps f s).busy = s.busy := rfl
@[simp] theorem updateTemps_requests : (updateTemps f s).requests = s.requests := rfl
@[simp] theorem updateTemps_readyIn : (updateTemps f s).readyIn = s.readyIn := rfl
@[simp] theorem updateTemps_cfgokIn : (updateTemps f s).cfgokIn = s.cfgokIn := rfl
@[simp] theorem updateTemps_temps : (updateTemps f s).temps = f s.temps := rfl
@[simp] theorem updateTemps_bus : (updateTemps f s).bus = s.bus := rfl
@[simp] theorem updateTemps_pinTrace : (updateTemps f s).pinTrace = s.pinTrace := rfl

end

/-- `PAT` and `ADDR` are set by a change of the temporaries. -/
theorem setPatAddr_eq (pat : Pattern) (addr : BitVec 6) (s : State) :
    setPatAddr pat addr s = updateTemps (fun t => { t with pat := pat, addr := addr }) s := rfl

/-! ### markReady -/

section
variable (s : State)

@[simp] theorem markReady_st : (markReady s).st = .ready := rfl
@[simp] theorem markReady_result : (markReady s).result = .ok := rfl
@[simp] theorem markReady_cfg : (markReady s).cfg = s.cfg := rfl
@[simp] theorem markReady_busy : (markReady s).busy = s.busy := rfl
@[simp] theorem markReady_requests : (markReady s).requests = s.requests := rfl
@[simp] theorem markReady_readyIn : (markReady s).readyIn = s.readyIn := rfl
@[simp] theorem markReady_cfgokIn : (markReady s).cfgokIn = s.cfgokIn := rfl
@[simp] theorem markReady_temps : (markReady s).temps = s.temps := rfl
@[simp] theorem markReady_bus : (markReady s).bus = s.bus := rfl
@[simp] theorem markReady_pinTrace : (markReady s).pinTrace = s.pinTrace := rfl

end

/-! ### Composition -/

/-- No event, no change. -/
@[simp] theorem observeAll_nil (b : Bus) : b.observeAll [] = b := rfl

/-- Events one at a time. -/
theorem observeAll_cons (b : Bus) (e : PinEvent) (es : List PinEvent) :
    b.observeAll (e :: es) = (b.observe e).observeAll es := rfl

/-- Two lists of events, one after the other. -/
theorem observeAll_append (b : Bus) (es fs : List PinEvent) :
    b.observeAll (es ++ fs) = (b.observeAll es).observeAll fs := by
  simp [Bus.observeAll]

/-- No event, no change. -/
@[simp] theorem performAll_nil (s : State) : performAll [] s = s := by
  simp [performAll]

/-- Two lists of events, one after the other. -/
theorem performAll_append (es fs : List PinEvent) (s : State) :
    performAll (es ++ fs) s = performAll fs (performAll es s) := by
  simp [performAll, observeAll_append]

end Sys2Proof.Machine
end

