-- ==== Sys2Proof/Laws/Bits.lean ====
section
/-! SUPPORT. Bit strings and numbers; the frame decoder inverts the frame encoder; the named codes. -/

namespace Sys2Proof

/-- A bit string has the length asked for. -/
@[simp] theorem length_bitsMsbFirst (v n : Nat) : (bitsMsbFirst v n).length = n := by
  induction n with
  | zero => rfl
  | succ n ih => simp [bitsMsbFirst, ih]

/-- The fold of `natOfBits` from an accumulator. -/
theorem foldl_bits (bits : List Bool) (acc : Nat) :
    bits.foldl (fun a b => 2 * a + b.toNat) acc = acc * 2 ^ bits.length + natOfBits bits := by
  induction bits generalizing acc with
  | nil => simp [natOfBits]
  | cons b rest ih =>
    simp only [List.foldl_cons, natOfBits, List.length_cons]
    rw [ih, ih (2 * 0 + b.toNat)]
    ring

/-- Reading back the low `n` bits, most significant first, gives the value modulo `2^n`. -/
theorem natOfBits_bitsMsbFirst (v n : Nat) : natOfBits (bitsMsbFirst v n) = v % 2 ^ n := by
  induction n with
  | zero => simp [bitsMsbFirst, natOfBits, Nat.mod_one]
  | succ n ih =>
    simp only [bitsMsbFirst, natOfBits, List.foldl_cons]
    rw [foldl_bits, ih, length_bitsMsbFirst, Nat.mod_pow_succ]
    have h : (v.testBit n).toNat = v / 2 ^ n % 2 := by
      rw [Nat.testBit_eq_decide_div_mod_eq]
      rcases Nat.mod_two_eq_zero_or_one (v / 2 ^ n) with h | h <;> simp [h]
    rw [h]
    ring

/-- A bit vector is read back from its own bits. -/
theorem ofNat_natOfBits {n : Nat} (x : BitVec n) : BitVec.ofNat n (natOfBits (bitsMsbFirst x.toNat n)) = x := by
  apply BitVec.eq_of_toNat_eq
  simp [natOfBits_bitsMsbFirst, Nat.mod_eq_of_lt x.isLt]

/-- The decoder of bit strings inverts the encoder (R54, R61, R62). -/
@[simp] theorem frameOfBits_bitsOfFrame (f : Frame) : frameOfBits (bitsOfFrame f) = some f := by
  have t3 : ∀ p : Nat, ∀ l : List Bool, (bitsMsbFirst p 3 ++ l).take 3 = bitsMsbFirst p 3 := fun p l =>
    List.take_left' (length_bitsMsbFirst p 3)
  have d3 : ∀ p : Nat, ∀ l : List Bool, (bitsMsbFirst p 3 ++ l).drop 3 = l := fun p l =>
    List.drop_left' (length_bitsMsbFirst p 3)
  cases f with
  | cmd c =>
    have hp : natOfBits (bitsMsbFirst prefixCmd 3) = prefixCmd := by decide
    simp [frameOfBits, bitsOfFrame, t3, d3, hp, ofNat_natOfBits]
  | write a d =>
    have d9 : (bitsMsbFirst prefixWrite 3 ++ (bitsMsbFirst a.toNat 6 ++ bitsMsbFirst d.toNat 4)).drop 9 =
        bitsMsbFirst d.toNat 4 := by
      rw [← List.append_assoc]
      exact List.drop_left' (by simp)
    have t6 : (bitsMsbFirst a.toNat 6 ++ bitsMsbFirst d.toNat 4).take 6 = bitsMsbFirst a.toNat 6 :=
      List.take_left' (length_bitsMsbFirst _ _)
    have hp : natOfBits (bitsMsbFirst prefixWrite 3) = prefixWrite := by decide
    simp [frameOfBits, bitsOfFrame, t3, d3, d9, t6, hp, ofNat_natOfBits]

/-- The place of a named command names it. -/
@[simp] theorem commandAt_index (n : SysCommand) : commandAt n.index = some n := by
  cases n with
  | biasCom k => fin_cases k <;> rfl
  | _ => rfl

/-- A place that names a command is its place. -/
theorem index_of_commandAt {i : BitVec 8} {n : SysCommand} (h : commandAt i = some n) : n.index = i := by
  unfold commandAt at h
  split at h
  · cases h; simp_all [SysCommand.index]
  split at h
  · cases h; simp_all [SysCommand.index]
  split at h
  · cases h; simp_all [SysCommand.index]
  split at h
  · cases h; simp_all [SysCommand.index]
  split at h
  · cases h; simp_all [SysCommand.index]
  split at h
  · rename_i hr
    cases h
    apply BitVec.eq_of_toNat_eq
    simp only [SysCommand.index, BitVec.toNat_ofNat]
    omega
  · cases h

/-- The code of a named command is read as that command (R30). -/
@[simp] theorem commandOf_cmdCode (n : SysCommand) : commandOf (Config.cmdCode n) = some n := by
  simp [commandOf, Config.cmdCode]

/-- `commandOf` says exactly which code a byte is. -/
theorem commandOf_eq_some_iff (c : BitVec 8) (n : SysCommand) : commandOf c = some n ↔ Config.cmdCode n = c := by
  constructor
  · intro h
    have := index_of_commandAt h
    simp [Config.cmdCode, this]
  · rintro rfl
    exact commandOf_cmdCode n

/-- A byte that is no code names no command. -/
theorem commandOf_eq_none_iff (c : BitVec 8) : commandOf c = none ↔ ¬ IsNamedCode c := by
  constructor
  · rintro h ⟨n, hn⟩
    rw [(commandOf_eq_some_iff c n).2 hn] at h
    cases h
  · intro h
    cases hc : commandOf c with
    | none => rfl
    | some n => exact absurd ⟨n, (commandOf_eq_some_iff c n).1 hc⟩ h

/-- The eleven codes are pairwise distinct (D6). -/
theorem cmdCode_injective : Function.Injective Config.cmdCode := by
  intro m n h
  have := commandOf_cmdCode m
  rw [h, commandOf_cmdCode] at this
  exact (Option.some.inj this).symm

/-! ### Request words -/

/-- A concatenation as a number. -/
theorem append_toNat {m n : Nat} (x : BitVec m) (y : BitVec n) : (x ++ y).toNat = x.toNat * 2 ^ n + y.toNat := by
  rw [BitVec.toNat_append, ← Nat.shiftLeft_add_eq_or_of_lt y.isLt, Nat.shiftLeft_eq]

/-- A one-bit field as a number. -/
theorem ofBool_toNat (b : Bool) : (BitVec.ofBool b).toNat = b.toNat := by cases b <;> rfl

/-- A field of a request word as a number. -/
theorem reqField_toNat (w : ReqWord) (lo len : Nat) : (reqField w lo len).toNat = w.toNat / 2 ^ lo % 2 ^ len := by
  simp [reqField, BitVec.extractLsb'_toNat, Nat.shiftRight_eq_div_pow]

/-- A field is what its number says. -/
theorem reqField_eq {w : ReqWord} {lo len : Nat} {x : BitVec len} (h : w.toNat / 2 ^ lo % 2 ^ len = x.toNat) :
    reqField w lo len = x := by
  apply BitVec.eq_of_toNat_eq
  rw [reqField_toNat, h]

end Sys2Proof
end

