-- ==== Sys2Proof/Laws/Memory.lean ====
section
/-! SUPPORT. Controller memory: read after write, other cells, and the canonical form kept. -/

namespace Sys2Proof.Machine

/-- The written cell is found. -/
@[simp] theorem lookupCell_insertCell_same (a : Nat) (d : Nibble) (l : List (Nat × Nibble)) :
    lookupCell a (insertCell a d l) = some d := by
  induction l with
  | nil => simp [insertCell, lookupCell]
  | cons p rest ih =>
    obtain ⟨b, e⟩ := p
    simp only [insertCell]
    split
    · simp [lookupCell]
    · split
      · simp [lookupCell]
      · rename_i hne
        simp [lookupCell, hne, ih]

/-- Another cell is found as before. -/
theorem lookupCell_insertCell_other {a x : Nat} (h : x ≠ a) (d : Nibble) (l : List (Nat × Nibble)) :
    lookupCell x (insertCell a d l) = lookupCell x l := by
  induction l with
  | nil => simp [insertCell, lookupCell, h]
  | cons p rest ih =>
    obtain ⟨b, e⟩ := p
    simp only [insertCell]
    split
    · simp [lookupCell, h]
    · split
      · subst_vars
        simp [lookupCell, h]
      · simp [lookupCell, ih]

/-- A write touches no address but its own. -/
theorem mem_insertCell {a : Nat} {d : Nibble} {l : List (Nat × Nibble)} {p : Nat × Nibble}
    (h : p ∈ insertCell a d l) : p.1 = a ∨ p ∈ l := by
  induction l with
  | nil => simp [insertCell] at h; simp [h]
  | cons q rest ih =>
    obtain ⟨b, e⟩ := q
    simp only [insertCell] at h
    split at h
    · rcases List.mem_cons.1 h with rfl | h
      · exact .inl rfl
      · exact .inr h
    · split at h
      · rcases List.mem_cons.1 h with rfl | h
        · exact .inl rfl
        · exact .inr (List.mem_cons_of_mem _ h)
      · rcases List.mem_cons.1 h with rfl | h
        · exact .inr List.mem_cons_self
        · rcases ih h with h | h
          · exact .inl h
          · exact .inr (List.mem_cons_of_mem _ h)

/-- A write keeps the addresses strictly rising. -/
theorem pairwise_insertCell {l : List (Nat × Nibble)} (a : Nat) (d : Nibble)
    (h : l.Pairwise fun p q => p.1 < q.1) : (insertCell a d l).Pairwise fun p q => p.1 < q.1 := by
  induction l with
  | nil => simp [insertCell]
  | cons q rest ih =>
    obtain ⟨b, e⟩ := q
    obtain ⟨hb, hrest⟩ := List.pairwise_cons.1 h
    simp only [insertCell]
    split
    · rename_i hab
      refine List.pairwise_cons.2 ⟨fun p hp => ?_, h⟩
      rcases List.mem_cons.1 hp with rfl | hp
      · exact hab
      · exact Nat.lt_trans hab (hb p hp)
    · split
      · rename_i hab
        subst hab
        exact List.pairwise_cons.2 ⟨hb, hrest⟩
      · rename_i h1 h2
        refine List.pairwise_cons.2 ⟨fun p hp => ?_, ih hrest⟩
        rcases mem_insertCell hp with hp | hp
        · simp only [hp]; omega
        · exact hb p hp

/-- Every write keeps the canonical form. -/
theorem Memory.wf_write {m : Memory} (a : Nat) (d : Nibble) (h : m.wf = true) : (m.write a d).wf = true := by
  cases m with
  | poisoned => rfl
  | cells l =>
    simp only [Memory.write]
    split
    · rename_i ha
      simp only [Memory.wf, Bool.and_eq_true, decide_eq_true_eq, List.all_eq_true] at h ⊢
      refine ⟨pairwise_insertCell a d h.1, fun p hp => ?_⟩
      rcases mem_insertCell hp with hp | hp
      · rw [hp]; exact ha
      · exact h.2 p hp
    · rfl

/-- Read after write, for an existing cell of a memory that is not poisoned. -/
theorem Memory.read_write_same {m : Memory} {a : Nat} (d : Nibble) (hm : m ≠ .poisoned) (ha : a < Config.memCells) :
    (m.write a d).read a = some d := by
  cases m with
  | poisoned => exact absurd rfl hm
  | cells l => simp [Memory.write, ha, Memory.read]

/-- A write to an existing cell leaves every other cell as it was. -/
theorem Memory.read_write_other {a x : Nat} (d : Nibble) (h : x ≠ a) (ha : a < Config.memCells) (m : Memory) :
    (m.write a d).read x = m.read x := by
  cases m with
  | poisoned => rfl
  | cells l => simp [Memory.write, ha, Memory.read, lookupCell_insertCell_other h]

/-- A write to an existing cell poisons nothing. -/
theorem Memory.write_ne_poisoned {m : Memory} {a : Nat} (d : Nibble) (hm : m ≠ .poisoned) (ha : a < Config.memCells) :
    m.write a d ≠ .poisoned := by
  cases m with
  | poisoned => exact absurd rfl hm
  | cells l => simp [Memory.write, ha]

/-- A write to an address with no cell poisons (R47, R53). -/
theorem Memory.write_outside {a : Nat} (d : Nibble) (ha : Config.memCells ≤ a) (m : Memory) :
    m.write a d = .poisoned := by
  cases m with
  | poisoned => rfl
  | cells l => simp [Memory.write, Nat.not_lt.2 ha]

end Sys2Proof.Machine
end

