-- ==== Sys2Proof/Laws/Bus.lean ====
section
/-! SUPPORT. What the receiver makes of the driver's pin events: bit cells are sampled, frames arrive whole (R54). -/

namespace Sys2Proof.Machine

@[simp] theorem observe_delayQuantum (b : Bus) : b.observe delayQuantum = b := rfl
@[simp] theorem observe_delayMs (b : Bus) (n : Nat) : b.observe (.delayMs n) = b := rfl

/-- One bit cell: the bit is sampled into the open frame, WR ends high, DATA at the bit (R81). -/
theorem observeAll_sendBit (b : Bus) (v : Bool) :
    b.observeAll (sendBit v) =
      { b with lvl := ⟨b.lvl.cs, true, v⟩, rxBits := b.rxBits.map (· ++ [v]) } := by
  simp [sendBit, observeAll_cons, Bus.observe, Bus.react, delayQuantum]

/-- A field: its bits are sampled, most significant first (R82). -/
theorem observeAll_sendBits (b : Bus) (v n : Nat) :
    b.observeAll (sendBits v (n + 1)) =
      { b with lvl := ⟨b.lvl.cs, true, v.testBit 0⟩, rxBits := b.rxBits.map (· ++ bitsMsbFirst v (n + 1)) } := by
  induction n generalizing b with
  | zero => simp [sendBits, observeAll_sendBit, bitsMsbFirst]
  | succ n ih =>
    rw [sendBits, observeAll_append, observeAll_sendBit, ih]
    cases b.rxBits <;> simp [bitsMsbFirst]

/-- The preamble from a wire at rest opens a frame (R83). -/
theorem observeAll_frameBegin {b : Bus} (h : b.Idle) :
    b.observeAll frameBegin = { b with lvl := ⟨false, true, b.lvl.data⟩, rxBits := some [] } := by
  obtain ⟨hc, hw, -⟩ := h
  simp [frameBegin, delayQuantum, observeAll_cons, Bus.observe, Bus.react, hc, hw]

/-- The preamble opens a frame whenever CS and WR are high, whatever was open (R83, R54). -/
theorem observeAll_frameBegin_of_high {b : Bus} (hc : b.lvl.cs = true) (hw : b.lvl.wr = true) :
    b.observeAll frameBegin = { b with lvl := ⟨false, true, b.lvl.data⟩, rxBits := some [] } := by
  simp [frameBegin, delayQuantum, observeAll_cons, Bus.observe, Bus.react, hc, hw]

/-- The postamble on an open, well-formed frame delivers it (R84, R54). -/
theorem observeAll_frameEnd {b : Bus} {bits : List Bool} {f : Frame} (hw : b.lvl.wr = true)
    (hb : b.rxBits = some bits) (hf : frameOfBits bits = some f) :
    b.observeAll frameEnd = { b.receive f with lvl := ⟨true, true, b.lvl.data⟩, rxBits := none } := by
  cases f <;>
    simp [frameEnd, delayQuantum, observeAll_cons, Bus.observe, Bus.react, hw, hb, Bus.closeFrame, hf, Bus.receive]

/-- The last bit of a frame on the wire: bit 0 of its last field (R85(b)). -/
def lastBit : Frame → Bool
  | .cmd c => c.toNat.testBit 0
  | .write _ d => d.toNat.testBit 0

/-- A frame sent while CS and WR are high arrives whole, and the wire is at rest again (R54, R84, R85). -/
theorem observeAll_frameEvents_of_high {b : Bus} (hc : b.lvl.cs = true) (hw : b.lvl.wr = true) (f : Frame) :
    b.observeAll (frameEvents f) = { b.receive f with lvl := ⟨true, true, lastBit f⟩, rxBits := none } := by
  cases f with
  | cmd c =>
    simp only [frameEvents, sendCommandEvents, observeAll_append, observeAll_frameBegin_of_high hc hw,
      observeAll_sendBits, Option.map_some, List.nil_append]
    rw [observeAll_frameEnd (f := .cmd c) rfl rfl (frameOfBits_bitsOfFrame (.cmd c))]
    rfl
  | write a d =>
    simp only [frameEvents, writeMemoryEvents, observeAll_append, observeAll_frameBegin_of_high hc hw,
      observeAll_sendBits, Option.map_some, List.nil_append]
    rw [observeAll_frameEnd (f := .write a d) rfl rfl (frameOfBits_bitsOfFrame (.write a d))]
    rfl

/-- A frame sent on a wire at rest arrives whole. -/
theorem observeAll_frameEvents {b : Bus} (h : b.Idle) (f : Frame) :
    b.observeAll (frameEvents f) = { b.receive f with lvl := ⟨true, true, lastBit f⟩, rxBits := none } :=
  observeAll_frameEvents_of_high h.1 h.2.1 f

/-- Receiving a frame does not touch the lines or the frame in progress. -/
@[simp] theorem receive_dir (f : Frame) (b : Bus) : (b.receive f).dir = b.dir := by cases f <;> rfl
@[simp] theorem receive_lvl (f : Frame) (b : Bus) : (b.receive f).lvl = b.lvl := by cases f <;> rfl
@[simp] theorem receive_rxBits (f : Frame) (b : Bus) : (b.receive f).rxBits = b.rxBits := by cases f <;> rfl
@[simp] theorem receive_frames (f : Frame) (b : Bus) : (b.receive f).frames = b.frames ++ [f] := by cases f <;> rfl

/-- A postamble always leaves CS high and no frame open (R84). -/
theorem observeAll_frameEnd_idle {b : Bus} (hw : b.lvl.wr = true) : (b.observeAll frameEnd).Idle := by
  simp only [frameEnd, delayQuantum, observeAll_cons, Bus.observe, Bus.react, observeAll_nil]
  cases h : b.rxBits with
  | none => exact ⟨rfl, hw, h⟩
  | some bits => exact ⟨rfl, hw, rfl⟩

/-- `send_bits` of at least one bit leaves WR high (R85(c)). -/
theorem observeAll_sendBits_wr (b : Bus) (v n : Nat) : (b.observeAll (sendBits v (n + 1))).lvl.wr = true := by
  simp [observeAll_sendBits]

/-- After any frame, from any wire, the wire is at rest (R85(a)). -/
theorem observeAll_frameEvents_idle (b : Bus) (f : Frame) : (b.observeAll (frameEvents f)).Idle := by
  cases f <;>
    (simp only [frameEvents, sendCommandEvents, writeMemoryEvents, observeAll_append]
     exact observeAll_frameEnd_idle (observeAll_sendBits_wr _ _ _))

/-- Bit 0 of a bit vector, read either way. -/
theorem testBit_zero_toNat {n : Nat} (x : BitVec n) : x.toNat.testBit 0 = x.getLsbD 0 := rfl

@[simp] theorem lastBit_cmd (c : BitVec 8) : lastBit (.cmd c) = c.getLsbD 0 := rfl
@[simp] theorem lastBit_write (a : BitVec 6) (d : Nibble) : lastBit (.write a d) = d.getLsbD 0 := rfl

/-! ### What every pin event keeps -/

/-- Poisoning touches only `MEM` and the flags. -/
@[simp] theorem poison_dir (b : Bus) : b.poison.dir = b.dir := rfl
@[simp] theorem poison_frames (b : Bus) : b.poison.frames = b.frames := rfl
@[simp] theorem poison_mem (b : Bus) : b.poison.mem = .poisoned := rfl

/-- A closed frame was received or was malformed. -/
theorem closeFrame_cases (bits : List Bool) (b : Bus) :
    (∃ f, b.closeFrame bits = b.receive f) ∨ b.closeFrame bits = b.poison := by
  unfold Bus.closeFrame
  split
  · split
    · exact .inl ⟨_, rfl⟩
    · exact .inr rfl
  · exact .inr rfl

/-- What the receiver does at a `Set`: only the frame in progress changes, or a frame is received, or all is poisoned. -/
theorem react_cases (l : Line) (v : Bool) (b : Bus) :
    ∃ rx, b.react l v = { b with rxBits := rx } ∨ (∃ f, b.react l v = { b.receive f with rxBits := rx }) ∨
      b.react l v = { b.poison with rxBits := rx } := by
  cases l with
  | cs =>
    cases v with
    | false =>
      simp only [Bus.react]
      split
      · split
        · exact ⟨_, .inl rfl⟩
        · exact ⟨_, .inr (.inr rfl)⟩
      · exact ⟨b.rxBits, .inl rfl⟩
    | true =>
      simp only [Bus.react]
      split
      · rename_i bits _
        rcases closeFrame_cases bits b with ⟨f, h⟩ | h
        · exact ⟨none, .inr (.inl ⟨f, by rw [h]⟩)⟩
        · exact ⟨none, .inr (.inr (by rw [h]))⟩
      · exact ⟨b.rxBits, .inl rfl⟩
  | wr =>
    cases v with
    | false => exact ⟨b.rxBits, .inl rfl⟩
    | true =>
      simp only [Bus.react]
      split
      · exact ⟨b.rxBits, .inl rfl⟩
      · exact ⟨_, .inl rfl⟩
  | data => exact ⟨b.rxBits, .inl rfl⟩

/-- Every frame received keeps the canonical form of `MEM`. -/
theorem wf_receive {b : Bus} (f : Frame) (h : b.mem.wf = true) : (b.receive f).mem.wf = true := by
  cases f with
  | cmd c => exact h
  | write a d => exact Memory.wf_write a.toNat d h

/-- Every pin event keeps the canonical form of `MEM`. -/
theorem wf_observe {b : Bus} (e : PinEvent) (h : b.mem.wf = true) : (b.observe e).mem.wf = true := by
  cases e with
  | set l v =>
    show (b.react l v).mem.wf = true
    obtain ⟨rx, e | ⟨f, e⟩ | e⟩ := react_cases l v b <;> rw [e]
    · exact h
    · exact wf_receive f h
    · rfl
  | cfg l v => exact h
  | delayUs n => exact h
  | delayMs n => exact h

/-- Pin events keep the canonical form of `MEM`. -/
theorem wf_observeAll {b : Bus} (events : List PinEvent) (h : b.mem.wf = true) :
    (b.observeAll events).mem.wf = true := by
  induction events generalizing b with
  | nil => exact h
  | cons e rest ih => exact ih (wf_observe e h)

/-- `MEM` at reset is in its canonical form. -/
theorem wf_reset : Bus.reset.mem.wf = true := rfl

/-- Every pin event leaves `FRAMES` or appends one frame (R31). -/
theorem frames_observe (b : Bus) (e : PinEvent) : b.frames <+: (b.observe e).frames := by
  cases e with
  | set l v =>
    show b.frames <+: (b.react l v).frames
    obtain ⟨rx, e | ⟨f, e⟩ | e⟩ := react_cases l v b <;> rw [e] <;> simp
  | cfg l v => exact List.prefix_refl _
  | delayUs n => exact List.prefix_refl _
  | delayMs n => exact List.prefix_refl _

/-- `FRAMES` is append-only (R31). -/
theorem frames_observeAll (b : Bus) (events : List PinEvent) : b.frames <+: (b.observeAll events).frames := by
  induction events generalizing b with
  | nil => exact List.prefix_refl _
  | cons e rest ih => exact (frames_observe b e).trans (ih (b.observe e))

/-- Only `Cfg` events change a direction (R21). -/
theorem dir_observeAll {events : List PinEvent} (h : ∀ l v, PinEvent.cfg l v ∉ events) (b : Bus) :
    (b.observeAll events).dir = b.dir := by
  induction events generalizing b with
  | nil => rfl
  | cons e rest ih =>
    rw [observeAll_cons, ih fun l v hm => h l v (List.mem_cons_of_mem _ hm)]
    cases e with
    | set l v =>
      show (b.react l v).dir = b.dir
      obtain ⟨rx, e | ⟨f, e⟩ | e⟩ := react_cases l v b <;> rw [e] <;> simp
    | cfg l v => exact absurd List.mem_cons_self (h l v)
    | delayUs n => rfl
    | delayMs n => rfl

theorem cfg_notMem_sendBits (l : Line) (v : Bool) (value n : Nat) : PinEvent.cfg l v ∉ sendBits value n := by
  induction n with
  | zero => simp [sendBits]
  | succ n ih => simp [sendBits, sendBit, delayQuantum, ih]

/-- No frame configures a line. -/
theorem cfg_notMem_frameEvents (l : Line) (v : Bool) (f : Frame) : PinEvent.cfg l v ∉ frameEvents f := by
  cases f <;>
    simp [frameEvents, sendCommandEvents, writeMemoryEvents, frameBegin, frameEnd, delayQuantum, cfg_notMem_sendBits]

/-- Frames sent on any wire leave the directions alone. -/
theorem dir_observeAll_frames (b : Bus) (sent : List Frame) : (b.observeAll (sent.flatMap frameEvents)).dir = b.dir := by
  refine dir_observeAll (fun l v hm => ?_) b
  obtain ⟨f, -, hf⟩ := List.mem_flatMap.1 hm
  exact cfg_notMem_frameEvents l v f hf

/-- Poison stays under every pin event (log 9). -/
theorem poisoned_observe (b : Bus) (e : PinEvent) :
    (b.mem = .poisoned → (b.observe e).mem = .poisoned) ∧
      (b.controller = .poisoned → (b.observe e).controller = .poisoned) := by
  cases e with
  | set l v =>
    show (b.mem = .poisoned → (b.react l v).mem = .poisoned) ∧
      (b.controller = .poisoned → (b.react l v).controller = .poisoned)
    obtain ⟨rx, e | ⟨f, e⟩ | e⟩ := react_cases l v b <;> rw [e]
    · exact ⟨id, id⟩
    · cases f with
      | cmd c => exact ⟨id, fun h => by simp [Bus.receive, h, Controller.receive]⟩
      | write a d => exact ⟨fun h => by simp [Bus.receive, h, Memory.write], id⟩
    · exact ⟨fun _ => rfl, fun _ => rfl⟩
  | cfg l v => exact ⟨id, id⟩
  | delayUs n => exact ⟨id, id⟩
  | delayMs n => exact ⟨id, id⟩

end Sys2Proof.Machine
end

