-- ==== Sys2Proof/Laws/Operations.lean ====
section
/-! SUPPORT. What the driver's shared operations can do: each sends a list of frames and changes nothing else but
temporaries. -/

namespace Sys2Proof.Machine

/-- `t` is `s` after a list of frames put on the wire one after the other, and perhaps other temporaries. -/
def Sent (sent : List Frame) (s t : State) : Prop :=
  t = { performAll (sent.flatMap frameEvents) s with temps := t.temps }

theorem Sent.refl (s : State) : Sent [] s s := by simp [Sent]

theorem Sent.trans {f g : List Frame} {s t u : State} (h : Sent f s t) (k : Sent g t u) : Sent (f ++ g) s u := by
  unfold Sent at h k ⊢
  rw [k, h]
  simp [performAll, observeAll_append]

theorem sent_updateTemps (f : Temps → Temps) (s : State) : Sent [] s (updateTemps f s) := by
  simp [Sent, updateTemps]

theorem sent_setPatAddr (pat : Pattern) (addr : BitVec 6) (s : State) : Sent [] s (setPatAddr pat addr s) :=
  sent_updateTemps (fun t => { t with pat := pat, addr := addr }) s

theorem sent_writeMemory (a : BitVec 6) (d : Nibble) (s : State) : Sent [.write a d] s (writeMemory a d s) := by
  simp [Sent, writeMemory, frameEvents, performAll]

theorem sent_sendCommand (c : BitVec 8) (s : State) : Sent [.cmd c] s (sendCommand c s) := by
  simp [Sent, sendCommand, frameEvents, performAll]

/-- The nibble masks of R113 are slices. -/
theorem lowNibble_eq (pat : Pattern) : lowNibble pat = pat.extractLsb' 0 4 := by
  revert pat
  decide

theorem highNibble_eq (pat : Pattern) : highNibble pat = pat.extractLsb' 4 4 := by
  revert pat
  decide

/-- `render_digit` sends the two frames of its pattern, or none beyond position 5 (R113). -/
theorem sent_renderDigit (p : Nat) (v : DigitValue) (dp : Bool) (s : State) :
    Sent (if p < 6 then patternWrites p (itemPattern (v, dp)) else []) s (renderDigit p v dp s) := by
  unfold renderDigit
  by_cases h : p < 6
  · have hm : ¬ Config.maxDigits ≤ p := Nat.not_le.2 h
    have ha : cellOfPosition p + 1 = BitVec.ofNat 6 (2 * p + 1) := by
      simp [cellOfPosition, BitVec.ofNat_add]
    have e : patternWrites p (itemPattern (v, dp)) =
        ([] ++ [.write (cellOfPosition p) (lowNibble (withDp (encodeSegment v) dp))]) ++
          [.write (cellOfPosition p + 1) (highNibble (withDp (encodeSegment v) dp))] := by
      rw [ha, lowNibble_eq, highNibble_eq]
      rfl
    rw [if_pos h, if_neg hm, e]
    exact ((sent_setPatAddr _ _ s).trans (sent_writeMemory _ _ _)).trans (sent_writeMemory _ _ _)
  · rw [if_neg h, if_pos (Nat.not_lt.1 h : Config.maxDigits ≤ p)]
    exact Sent.refl s

/-- A sequence rendered from a position on sends its picture (R120). -/
theorem sent_renderFrom (p : Nat) (items : List Item) (s : State) :
    Sent (pictureWrites p items) s (renderFrom p items s) := by
  induction items generalizing p s with
  | nil => exact Sent.refl s
  | cons item rest ih =>
    obtain ⟨v, dp⟩ := item
    rw [renderFrom, pictureWrites]
    exact (sent_renderDigit p v dp s).trans (ih (p + 1) _)

/-- CLEAR's loop sends one frame for each address (R95). -/
theorem sent_clearCells (addrs : List Nat) (s : State) :
    Sent (addrs.map fun a => .write (BitVec.ofNat 6 a) 0) s (clearCells addrs s) := by
  induction addrs generalizing s with
  | nil => exact Sent.refl s
  | cons a rest ih =>
    rw [clearCells, List.map_cons]
    exact (sent_writeMemory _ 0 s).trans (ih _)

/-- `write_memory` and `send_command` do not touch the temporaries. -/
@[simp] theorem writeMemory_temps (a : BitVec 6) (d : Nibble) (s : State) : (writeMemory a d s).temps = s.temps :=
  performAll_temps _ _
@[simp] theorem sendCommand_temps (c : BitVec 8) (s : State) : (sendCommand c s).temps = s.temps :=
  performAll_temps _ _

@[simp] theorem clearCells_temps (addrs : List Nat) (s : State) : (clearCells addrs s).temps = s.temps := by
  induction addrs generalizing s with
  | nil => rfl
  | cons a rest ih => rw [clearCells, ih, writeMemory_temps]

/-- `render_digit` changes no temporary but PAT and ADDR (R113). -/
theorem renderDigit_temps (p : Nat) (v : DigitValue) (dp : Bool) (s : State) :
    ∃ pat addr, (renderDigit p v dp s).temps = { s.temps with pat := pat, addr := addr } := by
  unfold renderDigit
  split
  · exact ⟨s.temps.pat, s.temps.addr, rfl⟩
  · exact ⟨withDp (encodeSegment v) dp, cellOfPosition p, by simp [setPatAddr_eq]⟩

theorem renderFrom_temps (p : Nat) (items : List Item) (s : State) :
    ∃ pat addr, (renderFrom p items s).temps = { s.temps with pat := pat, addr := addr } := by
  induction items generalizing p s with
  | nil => exact ⟨s.temps.pat, s.temps.addr, rfl⟩
  | cons item rest ih =>
    obtain ⟨v, dp⟩ := item
    obtain ⟨pat, addr, h⟩ := ih (p + 1) (renderDigit p v dp s)
    obtain ⟨pat', addr', h'⟩ := renderDigit_temps p v dp s
    exact ⟨pat, addr, by rw [renderFrom, h, h']⟩

/-! ### What a list of frames does to a wire at rest -/

/-- `MEM` after a list of frames (R53). -/
def memAfter (sent : List Frame) (m : Memory) : Memory :=
  sent.foldl (fun m f => match f with | .cmd _ => m | .write a d => m.write a.toNat d) m

/-- The receiver flags after a list of frames (R53). -/
def controllerAfter (sent : List Frame) (c : Controller) : Controller :=
  sent.foldl (fun k f => match f with | .cmd c => k.receive c | .write _ _ => k) c

@[simp] theorem memAfter_nil (m : Memory) : memAfter [] m = m := rfl
theorem memAfter_append (f g : List Frame) (m : Memory) : memAfter (f ++ g) m = memAfter g (memAfter f m) := by
  simp [memAfter]
@[simp] theorem memAfter_write (a : BitVec 6) (d : Nibble) (rest : List Frame) (m : Memory) :
    memAfter (.write a d :: rest) m = memAfter rest (m.write a.toNat d) := rfl
@[simp] theorem memAfter_cmd (c : BitVec 8) (rest : List Frame) (m : Memory) :
    memAfter (.cmd c :: rest) m = memAfter rest m := rfl

/-- The level of DATA after a list of frames. -/
def dataAfter (sent : List Frame) (v : Bool) : Bool := sent.foldl (fun _ f => lastBit f) v

/-- Frames sent one after the other on a wire at rest all arrive, in order, and leave the wire at rest (R49, R54). -/
theorem observeAll_frames {b : Bus} (h : b.Idle) (sent : List Frame) :
    b.observeAll (sent.flatMap frameEvents) =
      { b with
        lvl := ⟨true, true, dataAfter sent b.lvl.data⟩
        frames := b.frames ++ sent
        mem := memAfter sent b.mem
        controller := controllerAfter sent b.controller } := by
  induction sent generalizing b with
  | nil =>
    obtain ⟨hc, hw, hr⟩ := h
    rcases b with ⟨dir, ⟨c, w, d⟩, rx, fs, m, k⟩
    simp_all [dataAfter, memAfter, controllerAfter]
  | cons f rest ih =>
    rw [List.flatMap_cons, observeAll_append, observeAll_frameEvents h, ih ⟨rfl, rfl, rfl⟩]
    cases f <;>
      simp [Bus.receive, dataAfter, memAfter, controllerAfter, h.2.2]

/-- The nibble last written to a cell by a list of frames. -/
def lastWrite (a : Nat) : List Frame → Option Nibble
  | [] => none
  | .cmd _ :: rest => lastWrite a rest
  | .write x d :: rest => (lastWrite a rest).or (if a = x.toNat then some d else none)

/-- All addresses of a list of frames have a cell. -/
def InCells (sent : List Frame) : Prop := ∀ f ∈ sent, ∀ a d, f = .write a d → a.toNat < Config.memCells

theorem memAfter_ne_poisoned {sent : List Frame} (h : InCells sent) {m : Memory} (hm : m ≠ .poisoned) :
    memAfter sent m ≠ .poisoned := by
  induction sent generalizing m with
  | nil => exact hm
  | cons f rest ih =>
    have hr : InCells rest := fun g hg => h g (List.mem_cons_of_mem _ hg)
    cases f with
    | cmd c => exact ih hr hm
    | write a d => exact ih hr (Memory.write_ne_poisoned d hm (h _ List.mem_cons_self a d rfl))

/-- A cell holds what was last written to it; a cell not written is as before. -/
theorem read_memAfter {sent : List Frame} (h : InCells sent) {m : Memory} (hm : m ≠ .poisoned) (a : Nat) :
    (memAfter sent m).read a = (lastWrite a sent).or (m.read a) := by
  induction sent generalizing m with
  | nil => simp [lastWrite]
  | cons f rest ih =>
    have hr : InCells rest := fun g hg => h g (List.mem_cons_of_mem _ hg)
    cases f with
    | cmd c => simpa [lastWrite] using ih hr hm
    | write x d =>
      have hx := h _ List.mem_cons_self x d rfl
      rw [memAfter_write, ih hr (Memory.write_ne_poisoned d hm hx)]
      by_cases hax : a = x.toNat
      · subst hax
        cases hl : lastWrite x.toNat rest <;> simp [lastWrite, hl, Memory.read_write_same d hm hx]
      · simp [lastWrite, hax, Memory.read_write_other d hax hx]

/-- Frames that write no cell `a` leave it as it was. -/
theorem read_memAfter_other {sent : List Frame} (h : InCells sent) {a : Nat} (ha : lastWrite a sent = none) (m : Memory) :
    (memAfter sent m).read a = m.read a := by
  cases hm : m with
  | poisoned =>
    have hp : ∀ l : List Frame, memAfter l .poisoned = .poisoned := by
      intro l
      induction l with
      | nil => rfl
      | cons f rest ih => cases f <;> exact ih
    rw [hp]
  | cells l => rw [read_memAfter h (by simp), ha, Option.none_or]

/-- An operation that only sends frames leaves the driver's fields alone. -/
theorem Sent.driverFrame {sent : List Frame} {s t : State} (h : Sent sent s t) : DriverFrame s t := by
  rw [h]
  exact ⟨rfl, rfl, rfl, rfl, rfl, rfl⟩

theorem Sent.result {sent : List Frame} {s t : State} (h : Sent sent s t) : t.result = s.result := by
  rw [h]
  rfl

theorem Sent.pinTrace {sent : List Frame} {s t : State} (h : Sent sent s t) :
    t.pinTrace = s.pinTrace ++ sent.flatMap frameEvents := by
  rw [h]
  rfl

theorem Sent.bus {sent : List Frame} {s t : State} (h : Sent sent s t) :
    t.bus = s.bus.observeAll (sent.flatMap frameEvents) := by
  rw [h]
  rfl

/-- Only write frames. -/
def OnlyWrites (sent : List Frame) : Prop := ∀ f ∈ sent, ∀ c, f ≠ .cmd c

theorem controllerAfter_writes {sent : List Frame} (h : OnlyWrites sent) (c : Controller) :
    controllerAfter sent c = c := by
  induction sent generalizing c with
  | nil => rfl
  | cons f rest ih =>
    cases f with
    | cmd k => exact absurd rfl (h _ List.mem_cons_self k)
    | write a d => exact ih (fun g hg => h g (List.mem_cons_of_mem _ hg)) c

/-- An operation that only sends write frames, started with the wire at rest. -/
theorem Sent.wroteFrames {sent : List Frame} {s t : State} (h : Sent sent s t) (hi : s.bus.Idle)
    (hw : OnlyWrites sent) : WroteFrames sent s t := by
  have hb := h.bus
  rw [observeAll_frames hi] at hb
  refine ⟨by rw [hb], h.pinTrace, ?_, by rw [hb], by rw [hb]; exact controllerAfter_writes hw _⟩
  rw [hb]
  exact ⟨rfl, rfl, hi.2.2⟩

theorem Sent.mem {sent : List Frame} {s t : State} (h : Sent sent s t) (hi : s.bus.Idle) :
    t.bus.mem = memAfter sent s.bus.mem := by
  rw [h.bus, observeAll_frames hi]

/-! ### Pictures -/

theorem onlyWrites_pictureWrites (p : Nat) (items : List Item) : OnlyWrites (pictureWrites p items) := by
  induction items generalizing p with
  | nil => intro f hf; cases hf
  | cons item rest ih =>
    intro f hf c
    simp only [pictureWrites, List.mem_append] at hf
    rcases hf with hf | hf
    · split at hf
      · simp only [patternWrites, List.mem_cons, List.not_mem_nil, or_false] at hf
        rcases hf with rfl | rfl <;> simp
      · cases hf
    · exact ih _ f hf c

/-- Every frame of a picture from position `p` on writes a cell from `2p` to 11. -/
theorem pictureWrites_addr {p : Nat} {items : List Item} {a : BitVec 6} {d : Nibble}
    (h : Frame.write a d ∈ pictureWrites p items) : 2 * p ≤ a.toNat ∧ a.toNat < 12 := by
  induction items generalizing p with
  | nil => cases h
  | cons item rest ih =>
    simp only [pictureWrites, List.mem_append] at h
    rcases h with h | h
    · split at h
      · simp only [patternWrites, List.mem_cons, Frame.write.injEq, List.not_mem_nil, or_false] at h
        rcases h with ⟨rfl, -⟩ | ⟨rfl, -⟩ <;> simp only [BitVec.toNat_ofNat] <;> omega
      · cases h
    · have := ih h
      omega

theorem inCells_pictureWrites (p : Nat) (items : List Item) : InCells (pictureWrites p items) := by
  rintro f hf a d rfl
  have := (pictureWrites_addr hf).2
  simp only [Config.memCells]
  omega

theorem lastWrite_append (a : Nat) (f g : List Frame) :
    lastWrite a (f ++ g) = (lastWrite a g).or (lastWrite a f) := by
  induction f with
  | nil => simp [lastWrite]
  | cons x rest ih => cases x <;> simp [lastWrite, ih, Option.or_assoc]

theorem lastWrite_eq_none {a : Nat} {l : List Frame} (h : ∀ x d, Frame.write x d ∈ l → a ≠ x.toNat) :
    lastWrite a l = none := by
  induction l with
  | nil => rfl
  | cons f rest ih =>
    have hr := ih fun x d hx => h x d (List.mem_cons_of_mem _ hx)
    cases f with
    | cmd c => simpa [lastWrite] using hr
    | write x d => simp [lastWrite, hr, h x d List.mem_cons_self]

/-- The two cells of a position hold the nibbles of the element there. -/
theorem lastWrite_pictureWrites {p q : Nat} {items : List Item} {item : Item} (hq : p + q < 6)
    (h : items[q]? = some item) :
    lastWrite (2 * (p + q)) (pictureWrites p items) = some ((itemPattern item).extractLsb' 0 4) ∧
      lastWrite (2 * (p + q) + 1) (pictureWrites p items) = some ((itemPattern item).extractLsb' 4 4) := by
  induction items generalizing p q with
  | nil => simp at h
  | cons first rest ih =>
    cases q with
    | zero =>
      simp only [List.getElem?_cons_zero, Option.some.injEq] at h
      subst h
      have hp : p < 6 := hq
      have later : ∀ a, a < 2 * (p + 1) → lastWrite a (pictureWrites (p + 1) rest) = none := fun a ha =>
        lastWrite_eq_none fun x d hx => by have := (pictureWrites_addr hx).1; omega
      have e1 : (BitVec.ofNat 6 (2 * p)).toNat = 2 * p := by simp only [BitVec.toNat_ofNat]; omega
      have e2 : (BitVec.ofNat 6 (2 * p + 1)).toNat = 2 * p + 1 := by simp only [BitVec.toNat_ofNat]; omega
      constructor
      · rw [pictureWrites, lastWrite_append, later _ (by omega)]
        simp [hp, patternWrites, lastWrite, e1, e2]
      · rw [pictureWrites, lastWrite_append, later _ (by omega)]
        simp [hp, patternWrites, lastWrite, e2]
    | succ q =>
      simp only [List.getElem?_cons_succ] at h
      have hs := ih (p := p + 1) (q := q) (by omega) h
      have e : p + 1 + q = p + (q + 1) := by omega
      rw [e] at hs
      constructor
      · rw [pictureWrites, lastWrite_append, hs.1, Option.some_or]
      · rw [pictureWrites, lastWrite_append, hs.2, Option.some_or]

/-- An operation that sends a picture and completes shows it. -/
theorem shows_of_sent {items : List Item} {s t : State} (h : Sent (pictureWrites 0 items) s t) (hi : s.bus.Idle) :
    Shows items s (complete t) := by
  have hc := inCells_pictureWrites 0 items
  have hw := h.wroteFrames hi (onlyWrites_pictureWrites 0 items)
  have hd := h.driverFrame
  refine ⟨⟨hw.1, hw.2, hw.3, hw.4, hw.5⟩, ⟨hd.1, hd.2, hd.3, hd.4, hd.5, hd.6⟩, rfl, ?_, ?_, ?_⟩
  · intro hm p item hp hi'
    have := (lastWrite_pictureWrites (p := 0) (by omega) hi').1
    rw [Nat.zero_add] at this
    simp only [complete_bus]
    rw [h.mem hi, read_memAfter hc hm, this, Option.some_or]
  · intro hm p item hp hi'
    have := (lastWrite_pictureWrites (p := 0) (by omega) hi').2
    rw [Nat.zero_add] at this
    simp only [complete_bus]
    rw [h.mem hi, read_memAfter hc hm, this, Option.some_or]
  · intro a ha
    simp only [complete_bus]
    rw [h.mem hi]
    exact read_memAfter_other hc (lastWrite_eq_none fun x d hx => by
      have := (pictureWrites_addr hx).2
      omega) _

end Sys2Proof.Machine
end

