-- ==== Sys2Proof/Laws/Exec.lean ====
section
/-! SUPPORT. What an operation and a step can do, said once: they perform whole blocks of pin events, and the lines, the
receiver and the traces follow those. -/

namespace Sys2Proof.Machine

/-- `t` is reached from `s` by performing blocks of pin events: `PINTRACE` gains them, the bus sees them, and the host's
fields are as before. -/
structure Drove (blocks : List TraceBlock) (s t : State) : Prop where
  trace : t.pinTrace = s.pinTrace ++ blocks.flatMap TraceBlock.events
  bus : t.bus = s.bus.observeAll (blocks.flatMap TraceBlock.events)
  busy : t.busy = s.busy
  requests : t.requests = s.requests
  readyIn : t.readyIn = s.readyIn
  cfgokIn : t.cfgokIn = s.cfgokIn

theorem Drove.refl (s : State) : Drove [] s s := ⟨by simp, by simp, rfl, rfl, rfl, rfl⟩

theorem Drove.trans {f g : List TraceBlock} {s t u : State} (h : Drove f s t) (k : Drove g t u) :
    Drove (f ++ g) s u := by
  refine ⟨?_, ?_, k.3.trans h.3, k.4.trans h.4, k.5.trans h.5, k.6.trans h.6⟩
  · rw [k.1, h.1]; simp
  · rw [k.2, h.2]; simp [observeAll_append]

/-- Performing the events of blocks. -/
theorem drove_performAll {events : List PinEvent} {blocks : List TraceBlock}
    (h : events = blocks.flatMap TraceBlock.events) (s : State) : Drove blocks s (performAll events s) := by
  subst h
  exact ⟨rfl, rfl, rfl, rfl, rfl, rfl⟩

theorem flatMap_frame_events (sent : List Frame) :
    (sent.map TraceBlock.frame).flatMap TraceBlock.events = sent.flatMap frameEvents := by
  induction sent with
  | nil => rfl
  | cons f rest ih => simp only [List.map_cons, List.flatMap_cons, ih, TraceBlock.events]

/-- Sending frames is performing frame blocks. -/
theorem Sent.drove {sent : List Frame} {s t : State} (h : Sent sent s t) : Drove (sent.map .frame) s t := by
  have hd := h.driverFrame
  refine ⟨?_, ?_, hd.3, hd.4, hd.5, hd.6⟩
  · rw [flatMap_frame_events, h.pinTrace]
  · rw [flatMap_frame_events, h.bus]

theorem Drove.complete {blocks : List TraceBlock} {s t : State} (h : Drove blocks s t) :
    Drove blocks s (complete t) := ⟨h.1, h.2, h.3, h.4, h.5, h.6⟩

theorem Drove.markReady {blocks : List TraceBlock} {s t : State} (h : Drove blocks s t) :
    Drove blocks s (markReady t) := ⟨h.1, h.2, h.3, h.4, h.5, h.6⟩

/-! ### Initialization -/

theorem configureLines_blocks (cfgok : LineMap Bool) (lines : List Line) :
    ∃ blocks : List TraceBlock, (configureLines cfgok lines).1 = blocks.flatMap TraceBlock.events := by
  induction lines with
  | nil => exact ⟨[], rfl⟩
  | cons l rest ih =>
    obtain ⟨blocks, h⟩ := ih
    unfold configureLines
    split
    · exact ⟨.cfg l :: blocks, by simp [h, TraceBlock.events]⟩
    · exact ⟨[], rfl⟩

/-- The blocks of the power-up wait and the four commands. -/
def powerUpBlocks (k : BiasCom) : List TraceBlock :=
  [.wait Config.tPowerupMs, .frame (.cmd (Config.cmdCode (.biasCom k))), .frame (.cmd (Config.cmdCode .osc)),
    .frame (.cmd (Config.cmdCode .sysEn)), .frame (.cmd (Config.cmdCode .lcdOn))]

theorem powerUp_eq (k : BiasCom) : powerUp k = (powerUpBlocks k).flatMap TraceBlock.events := by
  simp [powerUp, initCommands, powerUpBlocks, TraceBlock.events, frameEvents]

/-- An initialization that answers a next state ends in READY or FAILED, after whole blocks (R93, R143). -/
theorem initialise_next {k : BiasCom} {s t : State} (h : initialise k s = .next t) :
    s.st ≠ .ready ∧ t.cfg = k ∧ t.temps = s.temps ∧ (∃ blocks, Drove blocks s t) ∧
      ((t.st = .ready ∧ t.result = .ok) ∨ (t.st = .failed ∧ t.result = .errDeviceNotReady)) := by
  unfold initialise at h
  split at h
  · cases h
  rename_i hst
  split at h
  · obtain ⟨blocks, hb⟩ := configureLines_blocks s.cfgokIn Line.inOrder
    have hd : Drove blocks s (performAll (configureLines s.cfgokIn Line.inOrder).1 { s with cfg := k }) := by
      have := drove_performAll hb { s with cfg := k }
      exact ⟨this.1, this.2, this.3, this.4, this.5, this.6⟩
    simp only at h
    split at h
    · cases h
      have := hd.trans (drove_performAll (powerUp_eq k) _)
      exact ⟨hst, by simp, by simp, ⟨_, Drove.markReady this⟩, .inl ⟨markReady_st _, markReady_result _⟩⟩
    · cases h
      exact ⟨hst, rfl, rfl, ⟨_, hd.1, hd.2, hd.3, hd.4, hd.5, hd.6⟩, .inr ⟨rfl, rfl⟩⟩
  · cases h
    exact ⟨hst, rfl, rfl, ⟨[], by simp, by simp, rfl, rfl, rfl, rfl⟩, .inr ⟨rfl, rfl⟩⟩

/-! ### Display operations -/

/-- A display operation that answers a next state was accepted, ran and completed (R97). -/
theorem whenReady_next {op : State → State} {s t : State} (h : whenReady op s = .next t) :
    s.st = .ready ∧ t = complete (op s) := by
  unfold whenReady at h
  split at h
  · cases h; exact ⟨‹_›, rfl⟩
  · cases h

/-- The blocks of the test pattern (R129). -/
def testBlocks (digits : List Nat) : List TraceBlock :=
  digits.flatMap fun d =>
    (pictureWrites 0 (List.replicate Config.maxDigits (.digit (BitVec.ofNat 4 d), false))).map .frame ++
      [.wait Config.testStepMs]

theorem drove_testStep (d : Nat) (s : State) : Drove (testBlocks [d]) s (testStep d s) := by
  unfold testStep testBlocks
  simp only [List.flatMap_cons, List.flatMap_nil, List.append_nil]
  exact (sent_renderFrom 0 _ s).drove.trans (drove_performAll (by simp [TraceBlock.events]) _)

theorem drove_testSteps (digits : List Nat) (s : State) : Drove (testBlocks digits) s (testSteps digits s) := by
  induction digits generalizing s with
  | nil => exact Drove.refl s
  | cons d rest ih =>
    have h := (drove_testStep d s).trans (ih (testStep d s))
    rw [testSteps]
    simpa [testBlocks] using h

theorem testStep_frame (d : Nat) (s : State) :
    DriverFrame s (testStep d s) ∧ (testStep d s).result = s.result ∧
      ∃ pat addr, (testStep d s).temps = { s.temps with pat := pat, addr := addr } := by
  have h := sent_renderFrom 0 (List.replicate Config.maxDigits (.digit (BitVec.ofNat 4 d), false)) s
  have hd := h.driverFrame
  exact ⟨⟨hd.1, hd.2, hd.3, hd.4, hd.5, hd.6⟩, h.result, renderFrom_temps 0 _ s⟩

theorem testSteps_frame (digits : List Nat) (s : State) :
    DriverFrame s (testSteps digits s) ∧ (testSteps digits s).result = s.result ∧
      ∃ pat addr, (testSteps digits s).temps = { s.temps with pat := pat, addr := addr } := by
  induction digits generalizing s with
  | nil => exact ⟨⟨rfl, rfl, rfl, rfl, rfl, rfl⟩, rfl, s.temps.pat, s.temps.addr, rfl⟩
  | cons d rest ih =>
    obtain ⟨hd, hr, p, a, ht⟩ := testStep_frame d s
    obtain ⟨hd', hr', p', a', ht'⟩ := ih (testStep d s)
    rw [testSteps]
    exact ⟨⟨hd'.1.trans hd.1, hd'.2.trans hd.2, hd'.3.trans hd.3, hd'.4.trans hd.4, hd'.5.trans hd.5,
      hd'.6.trans hd.6⟩, hr'.trans hr, p', a', by rw [ht', ht]⟩

/-- DISPLAY_NUMBER sends its picture (R121). -/
theorem sent_displayNumber (value : BitVec 32) (lz : Bool) (s : State) :
    Sent (pictureWrites 0 (numberItems value lz)) s (displayNumber value lz s) := by
  unfold displayNumber
  exact (sent_updateTemps _ s).trans (sent_renderFrom 0 _ _)

/-- DISPLAY_FLOAT sends its picture (R124). -/
theorem sent_displayFloat (value : BitVec 32) (decimals : BitVec 8) (s : State) :
    Sent (pictureWrites 0 (floatItems Config.scale1000 floatDigitDrop floatMinExtra value decimals)) s
      (displayFloat value decimals s) := by
  unfold displayFloat
  exact (sent_updateTemps _ s).trans (sent_renderFrom 0 _ _)

/-- DISPLAY_FLOAT that answers a next state was accepted with its value in the domain (R97, R126). -/
theorem execDisplayFloat_next {value : BitVec 32} {decimals : BitVec 8} {s t : State}
    (h : execDisplayFloat value decimals s = .next t) :
    s.st = .ready ∧ floatInDomain (floatMagnitude value) = true ∧ t = complete (displayFloat value decimals s) := by
  unfold execDisplayFloat at h
  split at h
  · cases h
  · rename_i hc
    obtain ⟨hst, ht⟩ := whenReady_next h
    refine ⟨hst, ?_, ht⟩
    cases hf : floatInDomain (floatMagnitude value)
    · exact absurd ⟨hst, hf⟩ hc
    · rfl

/-! ### Every operation, every step -/

/-- An operation that answers a next state performed whole blocks of pin events. -/
theorem exec_next {i : Instr} {s t : State} (h : exec i s = .next t) : ∃ blocks, Drove blocks s t := by
  have done : ∀ {op : State → State} {sent : List Frame}, Sent sent s (op s) → whenReady op s = .next t →
      ∃ blocks, Drove blocks s t := by
    intro op sent hs hw
    obtain ⟨-, rfl⟩ := whenReady_next hw
    exact ⟨_, hs.drove.complete⟩
  have command : ∀ c, Host.Outcome.next (φ := Fault) (ρ := Refusal) (sendCommand c s) = .next t →
      ∃ blocks, Drove blocks s t := by
    rintro c ⟨⟩
    exact ⟨_, (sent_sendCommand c s).drove⟩
  cases i with
  | init => exact (initialise_next h).2.2.2.1
  | initCfg k =>
    simp only [exec, execInitCfg] at h
    split at h
    · exact (initialise_next h).2.2.2.1
    · cases h
      exact ⟨[], by simp, by simp, rfl, rfl, rfl, rfl⟩
  | clear => exact done (sent_clearCells _ s) h
  | writeRaw addr nibble => exact done (sent_writeMemory _ nibble s) h
  | displayDigit position v dp => exact done (sent_renderDigit _ _ dp s) h
  | displayNumber value lz => exact done (sent_displayNumber value lz s) h
  | displayFloat value decimals =>
    obtain ⟨-, -, rfl⟩ := execDisplayFloat_next h
    exact ⟨_, (sent_displayFloat value decimals s).drove.complete⟩
  | displayHex value => exact done (sent_renderFrom 0 _ s) h
  | testPattern =>
    obtain ⟨-, rfl⟩ := whenReady_next h
    exact ⟨_, (drove_testSteps _ s).complete⟩
  | sendCommand c => exact command c h
  | writeMemory a d =>
    cases h
    exact ⟨_, (sent_writeMemory a d s).drove⟩
  | sendCommandSysDis => exact command _ h
  | sendCommandSysEn => exact command _ h
  | sendCommandLcdOff => exact command _ h
  | sendCommandLcdOn => exact command _ h
  | sendCommandOsc => exact command _ h
  | sendCommandBiasCom0 => exact command _ h
  | sendCommandBiasCom1 => exact command _ h
  | sendCommandBiasCom2 => exact command _ h
  | sendCommandBiasCom3 => exact command _ h
  | sendCommandBiasCom4 => exact command _ h
  | sendCommandBiasCom5 => exact command _ h

/-- What a step that answers a next state can be: idle, an illegal request, or one operation run to completion. -/
theorem step_next {s t : State} (h : step s = .next t) :
    (s.requests = [] ∧ t = s) ∨
      ∃ p rest, s.requests = p :: rest ∧ s.busy = false ∧
        ((∃ e, decode p.word = .error e ∧ t = { takeBadRequest (accept p rest s) with busy := false }) ∨
          ∃ i u, decode p.word = .ok i ∧ exec i (accept p rest s) = .next u ∧ t = { u with busy := false }) := by
  unfold step at h
  split at h
  · rename_i hr
    cases h
    exact .inl ⟨hr, rfl⟩
  · rename_i p rest hr
    split at h
    · cases h
    · rename_i hb
      refine .inr ⟨p, rest, hr, by simpa using hb, ?_⟩
      cases hd : decode p.word with
      | error e =>
        rw [hd] at h
        cases e with
        | malformedFrame => cases h
        | illegalOp op => cases h; exact .inl ⟨_, rfl, rfl⟩
        | illegalBiasCom k => cases h; exact .inl ⟨_, rfl, rfl⟩
      | ok i =>
        rw [hd] at h
        refine .inr ⟨i, ?_⟩
        cases he : exec i (accept p rest s) with
        | next u =>
          simp only [he, release] at h
          cases h
          exact ⟨u, rfl, rfl, rfl⟩
        | fault r => simp only [he, release] at h; cases h
        | refused r => simp only [he, release] at h; cases h

/-- The bus and the traces after a step follow from whole blocks of pin events. -/
theorem step_blocks {s t : State} (h : step s = .next t) :
    ∃ blocks : List TraceBlock, t.pinTrace = s.pinTrace ++ blocks.flatMap TraceBlock.events ∧
      t.bus = s.bus.observeAll (blocks.flatMap TraceBlock.events) := by
  rcases step_next h with ⟨-, rfl⟩ | ⟨p, rest, -, -, ⟨e, -, rfl⟩ | ⟨i, u, -, he, rfl⟩⟩
  · exact ⟨[], by simp, by simp⟩
  · exact ⟨[], by simp, by simp⟩
  · obtain ⟨blocks, hb⟩ := exec_next he
    exact ⟨blocks, hb.trace, hb.bus⟩

end Sys2Proof.Machine
end

