-- ==== Sys2Proof/Laws/Blocks.lean ====
section
/-! SUPPORT. Which blocks of pin events each operation performs, as a function of the operation and the platform's answers;
what blocks do to the wire. -/

namespace Sys2Proof.Machine

/-! ### Initialization -/

/-- The blocks of an initialization, by the platform's answers (R93, R142). -/
def initBlocks (k : BiasCom) (ready cfgok : LineMap Bool) : List TraceBlock :=
  if Line.inOrder.all ready.get then
    if cfgok.cs then
      .cfg .cs :: if cfgok.wr then .cfg .wr :: if cfgok.data then .cfg .data :: powerUpBlocks k else [] else []
    else []
  else []

/-- All six answers are true. -/
def AllAnswersTrue (s : State) : Prop :=
  Line.inOrder.all s.readyIn.get = true ∧ s.cfgokIn.cs = true ∧ s.cfgokIn.wr = true ∧ s.cfgokIn.data = true

/-- The loop over the lines, unrolled. -/
theorem configureLines_inOrder (c : LineMap Bool) :
    configureLines c Line.inOrder =
      (if c.cs then .cfg .cs true :: if c.wr then .cfg .wr true :: if c.data then [.cfg .data true] else [] else [] else [],
        c.cs && c.wr && c.data) := by
  rcases c with ⟨a, b, c⟩
  revert a b c
  decide

/-- An initialization that answers a next state performed its blocks; it ended OK just when all six answers were true. -/
theorem initialise_drove {k : BiasCom} {s t : State} (h : initialise k s = .next t) :
    Drove (initBlocks k s.readyIn s.cfgokIn) s t ∧ (t.result = .ok → AllAnswersTrue s) ∧
      (t.result ≠ .ok → ¬ AllAnswersTrue s) := by
  unfold AllAnswersTrue
  unfold initialise at h
  split at h
  · cases h
  · split at h
    · rename_i hr
      rw [configureLines_inOrder] at h
      have e : initBlocks k s.readyIn s.cfgokIn = _ := if_pos hr
      rw [e]
      simp only at h
      rcases s with ⟨st, _, _, _, _, r, ⟨c1, c2, c3⟩, _, b, _⟩
      cases c1 <;> [skip; cases c2] <;> [skip; skip; cases c3] <;> simp at h <;> cases h
      · exact ⟨⟨by simp, by simp, rfl, rfl, rfl, rfl⟩, by simp [takeDeviceNotReady], by simp⟩
      · exact ⟨⟨by simp [TraceBlock.events], by simp [TraceBlock.events], rfl, rfl, rfl, rfl⟩,
          by simp [takeDeviceNotReady], by simp⟩
      · exact ⟨⟨by simp [TraceBlock.events], by simp [TraceBlock.events], rfl, rfl, rfl, rfl⟩,
          by simp [takeDeviceNotReady], by simp⟩
      · refine ⟨⟨?_, ?_, by simp, by simp, by simp, by simp⟩, by simpa using hr, by simp⟩
        · simp [powerUp_eq, TraceBlock.events]
        · simp [powerUp_eq, TraceBlock.events, observeAll_cons]
    · rename_i hr
      cases h
      rw [initBlocks, if_neg hr]
      exact ⟨⟨by simp, by simp, rfl, rfl, rfl, rfl⟩, by simp [takeDeviceNotReady], fun _ x => hr x.1⟩

/-! ### Every operation -/

/-- The blocks an operation performs when it answers a next state: a function of its operands and, for INIT and INIT_CFG,
of the platform's answers (R32). -/
def opBlocks (i : Instr) (ready cfgok : LineMap Bool) : List TraceBlock :=
  match i with
  | .init => initBlocks Config.defaultBiasCom ready cfgok
  | .initCfg k => if h : k.toNat < 6 then initBlocks ⟨k.toNat, h⟩ ready cfgok else []
  | .clear => ((List.range Config.memCells).map fun a => Frame.write (BitVec.ofNat 6 a) 0).map .frame
  | .writeRaw a d => [.frame (.write (a.setWidth 6) d)]
  | .displayDigit p v dp =>
    (if p.toNat < 6 then patternWrites p.toNat (itemPattern (digitOfPort v, dp)) else []).map .frame
  | .displayNumber v lz => (pictureWrites 0 (numberItems v lz)).map .frame
  | .displayFloat v d =>
    (pictureWrites 0 (floatItems Config.scale1000 floatDigitDrop floatMinExtra v d)).map .frame
  | .displayHex v => (pictureWrites 0 (hexItems v)).map .frame
  | .testPattern => testBlocks (List.range 10)
  | .sendCommand c => [.frame (.cmd c)]
  | .writeMemory a d => [.frame (.write a d)]
  | .sendCommandSysDis => [.frame (.cmd (Config.cmdCode .sysDis))]
  | .sendCommandSysEn => [.frame (.cmd (Config.cmdCode .sysEn))]
  | .sendCommandLcdOff => [.frame (.cmd (Config.cmdCode .lcdOff))]
  | .sendCommandLcdOn => [.frame (.cmd (Config.cmdCode .lcdOn))]
  | .sendCommandOsc => [.frame (.cmd (Config.cmdCode .osc))]
  | .sendCommandBiasCom0 => [.frame (.cmd (Config.cmdCode (.biasCom 0)))]
  | .sendCommandBiasCom1 => [.frame (.cmd (Config.cmdCode (.biasCom 1)))]
  | .sendCommandBiasCom2 => [.frame (.cmd (Config.cmdCode (.biasCom 2)))]
  | .sendCommandBiasCom3 => [.frame (.cmd (Config.cmdCode (.biasCom 3)))]
  | .sendCommandBiasCom4 => [.frame (.cmd (Config.cmdCode (.biasCom 4)))]
  | .sendCommandBiasCom5 => [.frame (.cmd (Config.cmdCode (.biasCom 5)))]

/-- An accepted display operation runs and completes (R97). -/
theorem whenReady_ready (op : State → State) {s : State} (h : s.st = .ready) :
    whenReady op s = .next (complete (op s)) := by
  unfold whenReady
  rw [if_pos h]

/-- A display operation that answers a next state was accepted: `ST` was READY, its blocks were performed, `RESULT` is OK,
and no other driver field is written. -/
theorem display_next {i : Instr} (hi : IsDisplayOperation i) {s t : State} (h : exec i s = .next t) :
    s.st = .ready ∧ Drove (opBlocks i s.readyIn s.cfgokIn) s t ∧ t.result = .ok ∧ DriverFrame s t := by
  have sent : ∀ {op : State → State} {f : List Frame}, Sent f s (op s) → whenReady op s = .next t →
      s.st = .ready ∧ Drove (f.map .frame) s t ∧ t.result = .ok ∧ DriverFrame s t := by
    intro op f hs hw
    obtain ⟨hst, rfl⟩ := whenReady_next hw
    have hd := hs.driverFrame
    exact ⟨hst, hs.drove.complete, rfl, hd.1, hd.2, hd.3, hd.4, hd.5, hd.6⟩
  cases i with
  | clear => exact sent (sent_clearCells _ s) h
  | writeRaw a d => exact sent (sent_writeMemory _ _ s) h
  | displayDigit p v dp => exact sent (sent_renderDigit _ _ _ s) h
  | displayNumber v lz => exact sent (sent_displayNumber _ _ s) h
  | displayHex v => exact sent (sent_renderFrom 0 _ s) h
  | displayFloat v d =>
    obtain ⟨hst, -, rfl⟩ := execDisplayFloat_next h
    exact sent (sent_displayFloat v d s) (whenReady_ready (displayFloat v d) hst)
  | testPattern =>
    obtain ⟨hst, rfl⟩ := whenReady_next h
    have hd := (testSteps_frame (List.range 10) s).1
    exact ⟨hst, (drove_testSteps _ s).complete, rfl, hd.1, hd.2, hd.3, hd.4, hd.5, hd.6⟩
  | _ => exact absurd hi (by simp [IsDisplayOperation])

/-- Every operation that answers a next state performed its blocks. -/
theorem exec_drove {i : Instr} {s t : State} (h : exec i s = .next t) :
    Drove (opBlocks i s.readyIn s.cfgokIn) s t := by
  have command : ∀ c, Host.Outcome.next (φ := Fault) (ρ := Refusal) (sendCommand c s) = .next t →
      Drove [.frame (.cmd c)] s t := by
    rintro c ⟨⟩
    exact (sent_sendCommand c s).drove
  have display : IsDisplayOperation i → Drove (opBlocks i s.readyIn s.cfgokIn) s t := fun hi => (display_next hi h).2.1
  cases i with
  | init => exact (initialise_drove h).1
  | initCfg k =>
    show Drove (if h : k.toNat < 6 then initBlocks ⟨k.toNat, h⟩ s.readyIn s.cfgokIn else []) s t
    change execInitCfg k s = _ at h
    unfold execInitCfg at h
    split at h
    · rename_i hk
      rw [dif_pos hk]
      exact (initialise_drove h).1
    · rename_i hk
      rw [dif_neg hk]
      cases h
      exact ⟨by simp, by simp, rfl, rfl, rfl, rfl⟩
  | writeMemory a d =>
    cases h
    exact (sent_writeMemory a d s).drove
  | sendCommand c => exact command _ h
  | sendCommandSysDis => exact command _ h
  | sendCommandSysEn => exact command _ h
  | sendCommandLcdOff => exact command _ h
  | sendCommandLcdOn => exact command _ h
  | sendCommandOsc => exact command _ h
  | sendCommandBiasCom0 => exact command _ h
  | sendCommandBiasCom1 => exact command _ h
  | sendCommandBiasCom2 => exact command _ h
  | sendCommandBiasCom3 => exact command _ h
  | sendCommandBiasCom4 => exact command _ h
  | sendCommandBiasCom5 => exact command _ h
  | _ => exact display trivial

/-! ### What blocks do to the wire -/

/-- The frames among blocks. -/
def framesOf (blocks : List TraceBlock) : List Frame :=
  blocks.filterMap fun b => match b with
    | .frame f => some f
    | .cfg _ => none
    | .wait _ => none

/-- While CS and WR are high, blocks add exactly their frames to `FRAMES` and leave CS and WR high (R49, R54). -/
theorem frames_observeAll_blocks (blocks : List TraceBlock) {b : Bus} (hc : b.lvl.cs = true) (hw : b.lvl.wr = true) :
    (b.observeAll (blocks.flatMap TraceBlock.events)).frames = b.frames ++ framesOf blocks ∧
      (b.observeAll (blocks.flatMap TraceBlock.events)).lvl.cs = true ∧
      (b.observeAll (blocks.flatMap TraceBlock.events)).lvl.wr = true := by
  induction blocks generalizing b with
  | nil => exact ⟨by simp [framesOf], hc, hw⟩
  | cons x rest ih =>
    rw [List.flatMap_cons, observeAll_append]
    cases x with
    | frame f =>
      rw [TraceBlock.events, observeAll_frameEvents_of_high hc hw]
      have := ih (b := { b.receive f with lvl := ⟨true, true, lastBit f⟩, rxBits := none }) rfl rfl
      refine ⟨?_, this.2⟩
      rw [this.1]
      simp [framesOf]
    | wait n => exact ih hc hw
    | cfg l =>
      have : (b.observeAll (TraceBlock.cfg l).events).lvl.cs = true ∧
          (b.observeAll (TraceBlock.cfg l).events).lvl.wr = true := by
        cases l <;> simp [TraceBlock.events, observeAll_cons, Bus.observe, hc, hw]
      exact ih this.1 this.2

/-- Blocks leave a wire at rest at rest (R85(a)). -/
theorem idle_observeAll_blocks (blocks : List TraceBlock) {b : Bus} (h : b.Idle) :
    (b.observeAll (blocks.flatMap TraceBlock.events)).Idle := by
  induction blocks generalizing b with
  | nil => exact h
  | cons x rest ih =>
    rw [List.flatMap_cons, observeAll_append]
    refine ih ?_
    cases x with
    | frame f => exact observeAll_frameEvents_idle b f
    | wait n => exact h
    | cfg l => cases l <;> simp [TraceBlock.events, observeAll_cons, Bus.observe, Bus.Idle, h.1, h.2.1, h.2.2]

end Sys2Proof.Machine
end

