-- ==== Sys2Proof/Laws/Formatters.lean ====
section
/-! SUPPORT. What the formatters' functions compute: extracted digits, their items, the temporaries, the binary32 datum. -/

namespace Sys2Proof.Machine

/-! ### Digit extraction (R121 step 2, R124 step 4) -/

theorem decimalLength_zero : decimalLength 0 = 0 := by simp [decimalLength]

theorem decimalLength_pos {m : Nat} (h : 0 < m) : decimalLength m = decimalLength (m / 10) + 1 := by
  unfold decimalLength
  rw [Nat.digits_def' (by omega) h, List.length_cons]

/-- Extraction gives the low decimal digits, least significant first; how many is said by the digits wanted, the digits the
number has, and the room. -/
theorem extractDigits_eq (minDig fuel n m : Nat) (hf : 0 < fuel) :
    extractDigits minDig fuel n m =
      (List.range (min fuel (max (max 1 (minDig - n)) (decimalLength m)))).map fun i =>
        BitVec.ofNat 4 (m / 10 ^ i % 10) := by
  induction fuel generalizing n m with
  | zero => omega
  | succ f ih =>
    unfold extractDigits
    by_cases hstop : m / 10 = 0 ∧ minDig ≤ n + 1
    · rw [if_pos hstop]
      have hl : decimalLength m ≤ 1 := by
        rcases Nat.eq_zero_or_pos m with rfl | h
        · rw [decimalLength_zero]
          omega
        · rw [decimalLength_pos h, hstop.1, decimalLength_zero]
      have hc : min (f + 1) (max (max 1 (minDig - n)) (decimalLength m)) = 1 := by omega
      rw [hc]
      simp
    · rw [if_neg hstop]
      rcases Nat.eq_zero_or_pos f with rfl | hf0
      · have hc : min (0 + 1) (max (max 1 (minDig - n)) (decimalLength m)) = 1 := by omega
        rw [hc]
        simp [extractDigits]
      · rw [ih (n + 1) (m / 10) hf0]
        have hc : min (f + 1) (max (max 1 (minDig - n)) (decimalLength m)) =
            min f (max (max 1 (minDig - (n + 1))) (decimalLength (m / 10))) + 1 := by
          rcases Nat.eq_zero_or_pos m with rfl | h
          · simp only [Nat.zero_div, true_and, decimalLength_zero] at hstop ⊢
            omega
          · rw [decimalLength_pos h]
            have : m / 10 ≠ 0 → 1 ≤ decimalLength (m / 10) := fun h => by
              rw [decimalLength_pos (Nat.pos_of_ne_zero h)]
              omega
            omega
        rw [hc, List.range_succ_eq_map]
        simp only [List.map_cons, List.map_map, pow_zero, Nat.div_one]
        congr 1
        apply List.map_congr_left
        intro i _
        simp only [Function.comp, pow_succ']
        rw [Nat.div_div_eq_div_mul]

/-- `lowDigits` is the same digits, most significant first. -/
theorem lowDigits_eq (m n : Nat) :
    lowDigits m n = ((List.range n).map fun i => BitVec.ofNat 4 (m / 10 ^ i % 10)).reverse.map .digit := by
  induction n with
  | zero => rfl
  | succ n ih => rw [lowDigits, ih, List.range_succ]; simp

/-- Digits as items, most significant first, the point on the digit that has `dec` digits to its right (D26). -/
theorem digitItems_eq (dec : Nat) (l : List (BitVec 4)) (i n : Nat) (hn : n = i + l.length) :
    digitItems dec i l =
      (l.reverse.map DigitValue.digit).zipIdx.map fun p => (p.1, decide (0 < dec ∧ p.2 + dec + 1 = n)) := by
  induction l generalizing i with
  | nil => rfl
  | cons d r ih =>
    rw [digitItems, ih (i + 1) (by simp at hn; omega)]
    simp only [List.reverse_cons, List.map_append, List.map_cons, List.map_nil, List.zipIdx_append, List.zipIdx_cons,
      List.zipIdx_nil, List.length_map, List.length_reverse]
    congr 2
    simp only [List.length_cons] at hn
    simp only [Prod.mk.injEq, true_and, decide_eq_decide]
    omega

/-- With `dec = 0` no digit carries the point. -/
theorem digitItems_zero (l : List (BitVec 4)) (i : Nat) :
    digitItems 0 i l = l.reverse.map fun d => (.digit d, false) := by
  induction l generalizing i with
  | nil => rfl
  | cons d r ih => simp [digitItems, ih]

/-! ### DISPLAY_NUMBER and DISPLAY_FLOAT -/

theorem numberDigits_eq (v : BitVec 32) :
    numberDigits v = (List.range (numberCount v)).map fun i => BitVec.ofNat 4 (v.toInt.natAbs / 10 ^ i % 10) := by
  have h := extractDigits_eq 1 Config.maxDigits 0 v.toInt.natAbs (by decide)
  have e : numberCount v = min 6 (max (max 1 (1 - 0)) (decimalLength v.toInt.natAbs)) := by
    unfold numberCount
    omega
  rw [e]
  exact h

theorem numberItems_eq (v : BitVec 32) (lz : Bool) : numberItems v lz = filled (numberShown v lz) := by
  unfold numberItems numberShown filled fillBlank
  rw [digitItems_zero, numberDigits_eq]
  simp only [lowDigits_eq, signItems, Config.maxDigits, decide_eq_true_eq, List.length_map, List.length_reverse,
    List.length_range, List.map_map]
  rfl

theorem floatDigits_eq (v : BitVec 32) (d : BitVec 8) :
    floatDigits Config.scale1000 floatDigitDrop floatMinExtra v d =
      (List.range (floatCount v d)).map fun i => BitVec.ofNat 4 (floatKept v d / 10 ^ i % 10) := by
  have h := extractDigits_eq (max 1 (clampDecimals d + floatMinExtra)) Config.maxDigits 0 (floatKept v d) (by decide)
  have e : floatCount v d =
      min 6 (max (max 1 (max 1 (clampDecimals d + floatMinExtra) - 0)) (decimalLength (floatKept v d))) := by
    unfold floatCount clampDecimals floatMinExtra
    omega
  rw [e]
  exact h

theorem floatItems_eq (v : BitVec 32) (d : BitVec 8) :
    floatItems Config.scale1000 floatDigitDrop floatMinExtra v d = filled (floatShown v d) := by
  unfold floatItems floatShown filled fillBlank
  rw [floatDigits_eq, digitItems_eq _ _ 0 (floatCount v d) (by simp)]
  simp only [lowDigits_eq]
  have : signItems (floatNegative v) = if v.msb = true ∧ v.setWidth 31 ≠ 0#31 then [(.minus, false)] else [] := by
    unfold signItems floatNegative floatMagnitude
    simp
  rw [this]
  rfl

/-- The stored digits: those of the list from index `i` on, the others as before. -/
theorem storeDigits_get (l : List (BitVec 4)) (i : Nat) (dig : Vector (BitVec 4) 6) (j : Nat) (hj : j < 6) :
    (storeDigits l i dig)[j] = if h : i ≤ j ∧ j < i + l.length then l[j - i]'(by omega) else dig[j] := by
  induction l generalizing i dig with
  | nil => simp [storeDigits]
  | cons d r ih =>
    rw [storeDigits, ih]
    simp only [Vector.getElem_setIfInBounds, List.length_cons]
    by_cases h1 : i = j
    · subst h1
      simp
    · by_cases h2 : i + 1 ≤ j ∧ j < i + 1 + r.length
      · rw [dif_pos h2, dif_pos (by omega)]
        have : j - i = (j - (i + 1)) + 1 := by omega
        simp [this]
      · rw [dif_neg h2, dif_neg (by omega), if_neg h1]

/-! ### The binary32 datum -/

theorem floatTimes2p149_eq (m : BitVec 31) :
    floatTimes2p149 m =
      if m.toNat / 2 ^ 23 = 0 then m.toNat % 2 ^ 23
      else (2 ^ 23 + m.toNat % 2 ^ 23) * 2 ^ (m.toNat / 2 ^ 23 - 1) := by
  have e : floatExponent m = m.toNat / 2 ^ 23 := by
    simp only [floatExponent, BitVec.extractLsb'_toNat, Nat.shiftRight_eq_div_pow]
    have := m.isLt
    omega
  have f : floatFraction m = m.toNat % 2 ^ 23 := by
    simp only [floatFraction, BitVec.extractLsb'_toNat, Nat.shiftRight_zero]
  unfold floatTimes2p149
  rw [e, f]

/-- The value grows with the magnitude bits. -/
theorem floatTimes2p149_mono {m m' : BitVec 31} (h : m.toNat ≤ m'.toNat) : floatTimes2p149 m ≤ floatTimes2p149 m' := by
  rw [floatTimes2p149_eq, floatTimes2p149_eq]
  generalize m.toNat = a at *
  generalize m'.toNat = b at *
  have hE : a / 2 ^ 23 ≤ b / 2 ^ 23 := Nat.div_le_div_right h
  by_cases h0 : a / 2 ^ 23 = 0
  · rw [if_pos h0]
    by_cases h1 : b / 2 ^ 23 = 0
    · rw [if_pos h1]
      omega
    · rw [if_neg h1]
      have := Nat.one_le_two_pow (n := b / 2 ^ 23 - 1)
      calc a % 2 ^ 23 ≤ (2 ^ 23 + b % 2 ^ 23) * 1 := by omega
        _ ≤ _ := Nat.mul_le_mul_left _ this
  · have h1 : b / 2 ^ 23 ≠ 0 := by omega
    rw [if_neg h0, if_neg h1]
    rcases Nat.eq_or_lt_of_le hE with he | hlt
    · rw [he]
      apply Nat.mul_le_mul_right
      omega
    · have e : b / 2 ^ 23 - 1 = (a / 2 ^ 23 - 1) + 1 + (b / 2 ^ 23 - a / 2 ^ 23 - 1) := by omega
      rw [e, pow_add, pow_add]
      have := Nat.one_le_two_pow (n := b / 2 ^ 23 - a / 2 ^ 23 - 1)
      calc (2 ^ 23 + a % 2 ^ 23) * 2 ^ (a / 2 ^ 23 - 1) ≤ 2 ^ 24 * 2 ^ (a / 2 ^ 23 - 1) :=
            Nat.mul_le_mul_right _ (by omega)
        _ = 2 ^ 23 * (2 ^ (a / 2 ^ 23 - 1) * 2 ^ 1 * 1) := by ring
        _ ≤ (2 ^ 23 + b % 2 ^ 23) * (2 ^ (a / 2 ^ 23 - 1) * 2 ^ 1 * 2 ^ (b / 2 ^ 23 - a / 2 ^ 23 - 1)) := by
          apply Nat.mul_le_mul (by omega)
          apply Nat.mul_le_mul_left
          exact this

/-- The domain of DISPLAY_FLOAT, by the magnitude bits (R126). -/
theorem floatInDomain_iff (m : BitVec 31) : floatInDomain m = true ↔ m.toNat ≤ 0x4A03126E := by
  have key : floatTimes2p149 m * 1000 < 2 ^ 31 * 2 ^ 149 ↔ m.toNat ≤ 0x4A03126E := by
    constructor
    · intro h
      by_contra hc
      have hm := floatTimes2p149_mono (m := 0x4A03126F) (m' := m) (by show 0x4A03126F ≤ _; clear h; omega)
      have h2 : 2 ^ 31 * 2 ^ 149 ≤ floatTimes2p149 0x4A03126F * 1000 := by decide
      exact absurd h (Nat.not_lt.2 (le_trans h2 (Nat.mul_le_mul_right _ hm)))
    · intro h
      have hm := floatTimes2p149_mono (m := m) (m' := 0x4A03126E) h
      have h2 : floatTimes2p149 0x4A03126E * 1000 < 2 ^ 31 * 2 ^ 149 := by decide
      exact lt_of_le_of_lt (Nat.mul_le_mul_right _ hm) h2
  unfold floatInDomain
  rw [Bool.and_eq_true, decide_eq_true_eq, key]
  constructor
  · exact fun h => h.2
  · intro h
    refine ⟨?_, h⟩
    have e : floatExponent m = m.toNat / 2 ^ 23 := by
      simp only [floatExponent, BitVec.extractLsb'_toNat, Nat.shiftRight_eq_div_pow]
      have := m.isLt
      omega
    simp only [bne_iff_ne, ne_eq, e]
    omega

end Sys2Proof.Machine
end

