-- ==== Sys2Proof/Laws/PerInstr.lean ====
section
/-! SUPPORT. The family EncodeMatchesTable: the encoding of every operation has its row's width and fixed bits. -/

namespace Sys2Proof.Laws.EncodeMatchesTable

/-- A row of the opcode table: how wide its word is, how many low bits are operands or reserved, and the fixed bits above. -/
structure Row where
  width : Nat
  operandBits : Nat
  fixed : Nat
deriving DecidableEq, Repr

/-- A row of the REQ48 format with an operation code (R71). -/
def request (op : Nat) : Row := ⟨48, 44, op⟩

/-- The rows of the FRAME11 and FRAME13 formats (R61, R62). -/
def frame11 : Row := ⟨11, 8, 0b100⟩
def frame13 : Row := ⟨13, 10, 0b101⟩

/-- A named row: FRAME11 with the code fixed as well (R92). -/
def named (n : SysCommand) : Row := ⟨11, 0, 0b100 * 2 ^ 8 + (Config.cmdCode n).toNat⟩

/-- The row of an operation. -/
def row : Instr → Row
  | .init => request 0x0
  | .initCfg _ => request 0x1
  | .clear => request 0x2
  | .writeRaw _ _ => request 0x3
  | .displayDigit _ _ _ => request 0x4
  | .displayNumber _ _ => request 0x5
  | .displayFloat _ _ => request 0x6
  | .displayHex _ => request 0x7
  | .testPattern => request 0x8
  | .sendCommand _ => frame11
  | .writeMemory _ _ => frame13
  | .sendCommandSysDis => named .sysDis
  | .sendCommandSysEn => named .sysEn
  | .sendCommandLcdOff => named .lcdOff
  | .sendCommandLcdOn => named .lcdOn
  | .sendCommandOsc => named .osc
  | .sendCommandBiasCom0 => named (.biasCom 0)
  | .sendCommandBiasCom1 => named (.biasCom 1)
  | .sendCommandBiasCom2 => named (.biasCom 2)
  | .sendCommandBiasCom3 => named (.biasCom 3)
  | .sendCommandBiasCom4 => named (.biasCom 4)
  | .sendCommandBiasCom5 => named (.biasCom 5)

/-- The width of a word in bits. -/
def width : PortWord → Nat
  | .request _ => 48
  | .frame bits => bits.length

/-- A word as a number, the first-sent bit of a frame the most significant. -/
def value : PortWord → Nat
  | .request w => w.toNat
  | .frame bits => natOfBits bits

/-- The encoding of an operation has its row's width and fixed bits. -/
def Statement (i : Instr) : Prop :=
  width (encode i) = (row i).width ∧ value (encode i) / 2 ^ (row i).operandBits = (row i).fixed

/-- Bits written one after the other. -/
theorem natOfBits_append (l m : List Bool) : natOfBits (l ++ m) = natOfBits l * 2 ^ m.length + natOfBits m := by
  unfold natOfBits
  rw [List.foldl_append, foldl_bits]
  rfl

/-- A command frame as a number. -/
theorem value_cmd (c : BitVec 8) : value (.frame (bitsOfFrame (.cmd c))) = 0b100 * 2 ^ 8 + c.toNat := by
  have hp : natOfBits (bitsMsbFirst prefixCmd 3) = 0b100 := by decide
  simp only [value, bitsOfFrame, natOfBits_append, length_bitsMsbFirst, hp, natOfBits_bitsMsbFirst]
  have := c.isLt
  omega

/-- A named command frame matches its row. -/
theorem statement_named (n : SysCommand) :
    width (.frame (bitsOfFrame (.cmd (Config.cmdCode n)))) = (named n).width ∧
      value (.frame (bitsOfFrame (.cmd (Config.cmdCode n)))) / 2 ^ (named n).operandBits = (named n).fixed := by
  refine ⟨by simp [width, bitsOfFrame, named], ?_⟩
  rw [value_cmd]
  simp [named]

theorem init : Statement .init := by
  unfold Statement
  decide

theorem initCfg (k : BitVec 3) : Statement (.initCfg k) := by
  have := k.isLt
  refine ⟨rfl, ?_⟩
  simp only [encode, value, row, request, append_toNat, BitVec.toNat_ofNat]
  omega

theorem clear : Statement .clear := by
  unfold Statement
  decide

theorem writeRaw (addr : BitVec 5) (nibble : Nibble) : Statement (.writeRaw addr nibble) := by
  have := addr.isLt
  have := nibble.isLt
  refine ⟨rfl, ?_⟩
  simp only [encode, value, row, request, append_toNat, BitVec.toNat_ofNat]
  omega

theorem displayDigit (position digitValue : BitVec 8) (decimalPoint : Bool) :
    Statement (.displayDigit position digitValue decimalPoint) := by
  have := position.isLt
  have := digitValue.isLt
  have := Bool.toNat_lt decimalPoint
  refine ⟨rfl, ?_⟩
  simp only [encode, value, row, request, append_toNat, ofBool_toNat, BitVec.toNat_ofNat]
  omega

theorem displayNumber (v : BitVec 32) (leadingZeros : Bool) : Statement (.displayNumber v leadingZeros) := by
  have := v.isLt
  have := Bool.toNat_lt leadingZeros
  refine ⟨rfl, ?_⟩
  simp only [encode, value, row, request, append_toNat, ofBool_toNat, BitVec.toNat_ofNat]
  omega

theorem displayFloat (v : BitVec 32) (decimals : BitVec 8) : Statement (.displayFloat v decimals) := by
  have := v.isLt
  have := decimals.isLt
  refine ⟨rfl, ?_⟩
  simp only [encode, value, row, request, append_toNat, BitVec.toNat_ofNat]
  omega

theorem displayHex (v : BitVec 24) : Statement (.displayHex v) := by
  have := v.isLt
  refine ⟨rfl, ?_⟩
  simp only [encode, value, row, request, append_toNat, BitVec.toNat_ofNat]
  omega

theorem testPattern : Statement .testPattern := by
  unfold Statement
  decide

theorem sendCommand (c : BitVec 8) : Statement (.sendCommand c) := by
  have := c.isLt
  refine ⟨by simp [encode, width, bitsOfFrame, row, frame11], ?_⟩
  simp only [encode, value_cmd, row, frame11]
  omega

theorem writeMemory (a : BitVec 6) (d : Nibble) : Statement (.writeMemory a d) := by
  have := a.isLt
  have := d.isLt
  have hp : natOfBits (bitsMsbFirst prefixWrite 3) = 0b101 := by decide
  refine ⟨by simp [encode, width, bitsOfFrame, row, frame13], ?_⟩
  simp only [encode, value, bitsOfFrame, row, frame13, natOfBits_append, length_bitsMsbFirst, hp,
    natOfBits_bitsMsbFirst]
  omega

theorem sendCommandSysDis : Statement .sendCommandSysDis := statement_named .sysDis

theorem sendCommandSysEn : Statement .sendCommandSysEn := statement_named .sysEn

theorem sendCommandLcdOff : Statement .sendCommandLcdOff := statement_named .lcdOff

theorem sendCommandLcdOn : Statement .sendCommandLcdOn := statement_named .lcdOn

theorem sendCommandOsc : Statement .sendCommandOsc := statement_named .osc

theorem sendCommandBiasCom0 : Statement .sendCommandBiasCom0 := statement_named (.biasCom 0)

theorem sendCommandBiasCom1 : Statement .sendCommandBiasCom1 := statement_named (.biasCom 1)

theorem sendCommandBiasCom2 : Statement .sendCommandBiasCom2 := statement_named (.biasCom 2)

theorem sendCommandBiasCom3 : Statement .sendCommandBiasCom3 := statement_named (.biasCom 3)

theorem sendCommandBiasCom4 : Statement .sendCommandBiasCom4 := statement_named (.biasCom 4)

theorem sendCommandBiasCom5 : Statement .sendCommandBiasCom5 := statement_named (.biasCom 5)

end Sys2Proof.Laws.EncodeMatchesTable
end

