-- ==== Sys2Proof/Tests/Slice0.lean ====
section
/-! SUPPORT. The model's own tests: ill-formed terms refused, words written out from the spec decode, one step of each
operation against the spec's vectors, and a witness for the hypotheses of every statement. -/

open Sys2Proof Sys2Proof.Machine

namespace Sys2Proof.Tests

/-! ### Well-formedness -/

/-- INIT_CFG 6 and 7 are illegal (R73). -/
theorem test_wf_initCfg_6 : ¬ Instr.WellFormed (.initCfg 6) := by simp [Instr.WellFormed]
theorem test_wf_initCfg_7 : ¬ Instr.WellFormed (.initCfg 7) := by simp [Instr.WellFormed]
theorem test_wf_initCfg_5 : Instr.WellFormed (.initCfg 5) := by simp [Instr.WellFormed]

/-- A generic command frame with a named code is spelt by its name. -/
theorem test_wf_sendCommand_named : ¬ Instr.WellFormed (.sendCommand (Config.cmdCode .osc)) := fun h => h ⟨.osc, rfl⟩

/-- A byte that is none of the eleven codes. -/
def otherCode : BitVec 8 := Config.codePerm 11

theorem otherCode_not_named : ¬ IsNamedCode otherCode := by
  rw [← commandOf_eq_none_iff]
  simp only [commandOf, otherCode, Equiv.symm_apply_apply]
  decide

theorem test_wf_sendCommand_other : Instr.WellFormed (.sendCommand otherCode) := otherCode_not_named

/-! ### Decoding of written-out words (request table of section 95, V-P1, V-P4 to V-P8, R71) -/

theorem test_decode_init : decode (.request 0x000000000000#48) = .ok .init := by decide
theorem test_decode_init_reserved : decode (.request 0x0FFFFFFFFFFF#48) = .ok .init := by decide
theorem test_decode_initCfg : decode (.request 0x1000000000FB#48) = .ok (.initCfg 3) := by decide
theorem test_decode_initCfg_6 : decode (.request 0x100000000006#48) = .error (.illegalBiasCom 6) := by decide
theorem test_decode_clear : decode (.request 0x200000000000#48) = .ok .clear := by decide
theorem test_decode_writeRaw : decode (.request 0x300000001F0F#48) = .ok (.writeRaw 31 0xF) := by decide
theorem test_decode_writeRaw_reserved : decode (.request 0x300000002C0A#48) = .ok (.writeRaw 12 0xA) := by decide
theorem test_decode_displayDigit : decode (.request 0x400000030901#48) = .ok (.displayDigit 3 9 true) := by decide
theorem test_decode_displayNumber : decode (.request 0x5001FFFE1DC0#48) = .ok (.displayNumber (-123456) true) := by decide
theorem test_decode_displayFloat : decode (.request 0x60FF40490FD0#48) = .ok (.displayFloat 0x40490FD0 (-1)) := by decide
theorem test_decode_displayHex : decode (.request 0x700000ABCDEF#48) = .ok (.displayHex 0xABCDEF) := by decide
theorem test_decode_testPattern : decode (.request 0x800000000000#48) = .ok .testPattern := by decide
theorem test_decode_op_9 : decode (.request 0x900000000000#48) = .error (.illegalOp 9) := by decide
theorem test_decode_op_F : decode (.request 0xF00000000000#48) = .error (.illegalOp 0xF) := by decide

/-- `1010011001010` is `write_memory(12, 0xA)` (V-P1). -/
theorem test_decode_writeMemory :
    decode (.frame [true, false, true, false, false, true, true, false, false, true, false, true, false]) =
      .ok (.writeMemory 12 0xA) := by decide
/-- 0x15F0 as a table word is `write_memory(31, 0)` (V-P1). -/
theorem test_decode_table_writeMemory : decodeTableWord 16 0x15F0 = some (.writeMemory 31 0) := by decide

/-- The frame `10000101001` is `Cmd(0x29)` (V-P2). -/
theorem test_frame_cmd :
    frameOfBits [true, false, false, false, false, true, false, true, false, false, true] = some (.cmd 0x29) := by decide
theorem test_frame_too_short : decode (.frame [true, false, true]) = .error .malformedFrame := by decide
/-- Eleven bits that begin 101 are no frame (R55). -/
theorem test_frame_wrong_length :
    decode (.frame [true, false, true, false, false, false, false, false, false, false, false]) =
      .error .malformedFrame := by decide

/-- A command frame, its code bits written most significant first (R61). -/
def commandBits (c : BitVec 8) : List Bool :=
  [true, false, false, c.getLsbD 7, c.getLsbD 6, c.getLsbD 5, c.getLsbD 4, c.getLsbD 3, c.getLsbD 2, c.getLsbD 1,
    c.getLsbD 0]

theorem decode_commandBits (n : SysCommand) : decode (.frame (commandBits (Config.cmdCode n))) = .ok (instrOfCommand n) := by
  have e : commandBits (Config.cmdCode n) = bitsOfFrame (.cmd (Config.cmdCode n)) := rfl
  simp [e, decode, instrOfFrame]

theorem test_decode_sendCommandSysDis : decode (.frame (commandBits (Config.cmdCode .sysDis))) = .ok .sendCommandSysDis :=
  decode_commandBits .sysDis
theorem test_decode_sendCommandSysEn : decode (.frame (commandBits (Config.cmdCode .sysEn))) = .ok .sendCommandSysEn :=
  decode_commandBits .sysEn
theorem test_decode_sendCommandLcdOff : decode (.frame (commandBits (Config.cmdCode .lcdOff))) = .ok .sendCommandLcdOff :=
  decode_commandBits .lcdOff
theorem test_decode_sendCommandLcdOn : decode (.frame (commandBits (Config.cmdCode .lcdOn))) = .ok .sendCommandLcdOn :=
  decode_commandBits .lcdOn
theorem test_decode_sendCommandOsc : decode (.frame (commandBits (Config.cmdCode .osc))) = .ok .sendCommandOsc :=
  decode_commandBits .osc
theorem test_decode_sendCommandBiasCom0 : decode (.frame (commandBits (Config.cmdCode (.biasCom 0)))) = .ok .sendCommandBiasCom0 :=
  decode_commandBits (.biasCom 0)
theorem test_decode_sendCommandBiasCom1 : decode (.frame (commandBits (Config.cmdCode (.biasCom 1)))) = .ok .sendCommandBiasCom1 :=
  decode_commandBits (.biasCom 1)
theorem test_decode_sendCommandBiasCom2 : decode (.frame (commandBits (Config.cmdCode (.biasCom 2)))) = .ok .sendCommandBiasCom2 :=
  decode_commandBits (.biasCom 2)
theorem test_decode_sendCommandBiasCom3 : decode (.frame (commandBits (Config.cmdCode (.biasCom 3)))) = .ok .sendCommandBiasCom3 :=
  decode_commandBits (.biasCom 3)
theorem test_decode_sendCommandBiasCom4 : decode (.frame (commandBits (Config.cmdCode (.biasCom 4)))) = .ok .sendCommandBiasCom4 :=
  decode_commandBits (.biasCom 4)
theorem test_decode_sendCommandBiasCom5 : decode (.frame (commandBits (Config.cmdCode (.biasCom 5)))) = .ok .sendCommandBiasCom5 :=
  decode_commandBits (.biasCom 5)
theorem test_decode_sendCommand : decode (.frame (commandBits otherCode)) = .ok (.sendCommand otherCode) := by
  have e : commandBits otherCode = bitsOfFrame (.cmd otherCode) := rfl
  simp [e, decode, instrOfFrame, (commandOf_eq_none_iff _).2 otherCode_not_named]

/-! ### One step on a small state -/

/-- A READY state with the wire at rest, nothing written and no frame sent. -/
def ready : State where
  st := .ready
  cfg := 3
  result := .ok
  busy := false
  requests := []
  readyIn := ⟨true, true, true⟩
  cfgokIn := ⟨true, true, true⟩
  temps := ⟨false, 0, #v[0, 0, 0, 0, 0, 0], 0, 0, 0, 0, 0⟩
  bus := ⟨⟨.output, .output, .output⟩, ⟨true, true, true⟩, none, [], .cells [], .flags ⟨true, true, true, some 3⟩⟩
  pinTrace := []

/-- The same before initialization. -/
def fresh : State := { ready with st := .reset, bus := { ready.bus with dir := ⟨.unconfigured, .unconfigured, .unconfigured⟩ } }

/-- The write frames of a result, as the spec's frame lists. -/
def writes : Result State → Option (List (Nat × Nat))
  | .next t => some (t.bus.frames.filterMap fun f => match f with
    | .cmd _ => none
    | .write a d => some (a.toNat, d.toNat))
  | .fault _ => none
  | .refused _ => none

/-- Something about the next state of a result. -/
def after {α : Type} (f : State → α) : Result State → Option α
  | .next t => some (f t)
  | .fault _ => none
  | .refused _ => none

/-- Why a result is refused. -/
def stop : Result State → Option Refusal
  | .next _ => none
  | .fault _ => none
  | .refused r => some r

/-- V-P5, `READY_IN[DATA]` false. -/
theorem test_init_not_ready :
    after (fun t => (t.st, t.result, t.pinTrace)) (exec .init { fresh with readyIn := ⟨true, true, false⟩ }) =
      some (.failed, .errDeviceNotReady, []) := by decide
/-- V-P5, `CFGOK_IN[DATA]` false: two lines stay configured. -/
theorem test_init_not_configured :
    after (fun t => (t.st, t.pinTrace, t.bus.dir)) (exec .init { fresh with cfgokIn := ⟨true, true, false⟩ }) =
      some (.failed, [.cfg .cs true, .cfg .wr true], ⟨.output, .output, .unconfigured⟩) := by decide
/-- V-P4: the first four events, the length, the end. -/
theorem test_initCfg :
    after (fun t => (t.st, t.cfg, t.result, t.pinTrace.take 4, t.pinTrace.length)) (exec (.initCfg 3) fresh) =
      some (.ready, 3, .ok, [.cfg .cs true, .cfg .wr true, .cfg .data true, .delayMs 100], 284) := by decide +kernel
theorem test_initCfg_illegal :
    after (fun t => (t.st, t.result, t.pinTrace)) (exec (.initCfg 6) fresh) = some (.reset, .errBadRequest, []) := by decide
/-- V-P6. -/
theorem test_clear : after (fun t => (t.bus.frames.length, t.pinTrace.length, t.bus.mem.read 31)) (exec .clear ready) =
    some (32, 2624, some 0) := by decide +kernel
/-- V-P8. -/
theorem test_clear_not_ready : stop (exec .clear fresh) = some .notReady := by decide
/-- V-P7. -/
theorem test_writeRaw : writes (exec (.writeRaw 31 0xF) ready) = some [(31, 0xF)] := by decide
theorem test_writeRaw_mem : after (fun t => (t.bus.mem, t.bus.lvl)) (exec (.writeRaw 12 0xA) ready) =
    some (.cells [(12, 0xA)], ⟨true, true, false⟩) := by decide
/-- V-D1, `v = 9` with the point. -/
theorem test_displayDigit : writes (exec (.displayDigit 3 9 true) ready) = some [(6, 0xF), (7, 0xE)] := by decide
/-- V-D2, position 6. -/
theorem test_displayDigit_beyond : after (fun t => t) (exec (.displayDigit 6 1 false) ready) = some ready := by decide
/-- S3. -/
theorem test_displayNumber : writes (exec (.displayNumber (-42) false) ready) =
    some [(0, 0), (1, 4), (2, 6), (3, 6), (4, 0xB), (5, 5), (6, 0), (7, 0), (8, 0), (9, 0), (10, 0), (11, 0)] := by decide +kernel
/-- V-N3. -/
theorem test_displayNumber_zeros : writes (exec (.displayNumber (-7) true) ready) =
    some [(0, 0), (1, 4), (2, 0xF), (3, 3), (4, 0xF), (5, 3), (6, 0xF), (7, 3), (8, 0xF), (9, 3), (10, 7), (11, 0)] := by
  decide +kernel
/-- V-F21: the first value above the domain. -/
theorem test_displayFloat_outside : stop (exec (.displayFloat 0x4A03126F 0) ready) = some .floatOutsideDomain := by decide
/-- V-F13, both candidates' scaled value 1234567: `- 2 3 4. 5 6 | 7`. -/
theorem test_displayFloat_items :
    floatItems (fun m => BitVec.ofNat 32 (scaleExact m)) true 0 0xC49A522B 3 =
      [(.minus, false), (.digit 2, false), (.digit 3, false), (.digit 4, true), (.digit 5, false), (.digit 6, false),
        (.digit 7, false)] := by decide
/-- S8. -/
theorem test_displayHex : writes (exec (.displayHex 0xABCDEF) ready) =
    some [(0, 7), (1, 7), (2, 0xC), (3, 7), (4, 9), (5, 3), (6, 0xE), (7, 5), (8, 9), (9, 7), (10, 1), (11, 7)] := by decide +kernel
/-- V-T1: the frames of step 1, the first after the twelve of step 0. -/
theorem test_testPattern_step : writes (.next (testStep 1 ready)) =
    some [(0, 6), (1, 0), (2, 6), (3, 0), (4, 6), (5, 0), (6, 6), (7, 0), (8, 6), (9, 0), (10, 6), (11, 0)] := by decide +kernel
/-- V-P2: `Cmd(0x29)`, 70 events, DATA left at 1. -/
theorem test_sendCommand : after (fun t => (t.bus.frames, t.pinTrace.length, t.bus.lvl.data)) (exec (.sendCommand 0x29) ready) =
    some ([.cmd 0x29], 70, true) := by decide
/-- V-B3: `Write(4, 7)`, 82 events, DATA left at 1. -/
theorem test_writeMemory : after (fun t => (t.bus.frames, t.pinTrace.length, t.bus.lvl.data)) (exec (.writeMemory 4 7) ready) =
    some ([.write 4 7], 82, true) := by decide
/-- An address with no cell poisons (R53). -/
theorem test_writeMemory_outside : after (fun t => t.bus.mem) (exec (.writeMemory 32 7) ready) = some .poisoned := by decide

/-! The named commands' flags (R92). -/

theorem test_record_SysDis (f : Flags) : f.receive (Config.cmdCode .sysDis) = { f with cSys := false } := by
  simp [Flags.receive, Flags.record]
theorem test_record_SysEn (f : Flags) : f.receive (Config.cmdCode .sysEn) = { f with cSys := true } := by
  simp [Flags.receive, Flags.record]
theorem test_record_LcdOff (f : Flags) : f.receive (Config.cmdCode .lcdOff) = { f with cLcd := false } := by
  simp [Flags.receive, Flags.record]
theorem test_record_LcdOn (f : Flags) : f.receive (Config.cmdCode .lcdOn) = { f with cLcd := true } := by
  simp [Flags.receive, Flags.record]
theorem test_record_Osc (f : Flags) : f.receive (Config.cmdCode .osc) = { f with cOsc := true } := by
  simp [Flags.receive, Flags.record]
theorem test_record_BiasCom0 (f : Flags) : f.receive (Config.cmdCode (.biasCom 0)) = { f with cBias := some 0 } := by
  simp [Flags.receive, Flags.record]
theorem test_record_BiasCom1 (f : Flags) : f.receive (Config.cmdCode (.biasCom 1)) = { f with cBias := some 1 } := by
  simp [Flags.receive, Flags.record]
theorem test_record_BiasCom2 (f : Flags) : f.receive (Config.cmdCode (.biasCom 2)) = { f with cBias := some 2 } := by
  simp [Flags.receive, Flags.record]
theorem test_record_BiasCom3 (f : Flags) : f.receive (Config.cmdCode (.biasCom 3)) = { f with cBias := some 3 } := by
  simp [Flags.receive, Flags.record]
theorem test_record_BiasCom4 (f : Flags) : f.receive (Config.cmdCode (.biasCom 4)) = { f with cBias := some 4 } := by
  simp [Flags.receive, Flags.record]
theorem test_record_BiasCom5 (f : Flags) : f.receive (Config.cmdCode (.biasCom 5)) = { f with cBias := some 5 } := by
  simp [Flags.receive, Flags.record]

/-! ### The step -/

/-- `ready` with a request on the port. -/
def presented (s : State) (w : PortWord) : State := { s with requests := [⟨w, s.readyIn, s.cfgokIn⟩] }

theorem test_step_illegal :
    after (fun t => (t.result, t.requests, t.busy, t.pinTrace)) (step (presented ready (.request 0x900000000000#48))) =
      some (.errBadRequest, [], false, []) := by decide
theorem test_step_busy : stop (step { presented ready (.request 0#48) with busy := true }) = some .requestWhileBusy := by decide
theorem test_step_malformed : stop (step (presented ready (.frame [true]))) = some .malformedFrame := by decide
theorem test_step_reset_init : after (fun t => t.st) (step (State.reset.withFetchWord 48 0x100000000003)) = some .ready := by
  decide

/-! ### Witnesses: the hypotheses of every statement, met together -/

theorem ready_idle : ready.bus.Idle := ⟨rfl, rfl, rfl⟩

/-- `ready` with the receiver poisoned, its wire at rest. -/
def poisonedReady : State := { ready with bus := { ready.bus with mem := .poisoned, controller := .poisoned } }

/-- Accepted display operations answer a next state. -/
theorem clear_next (s : State) (h : s.st = .ready) : ∃ t, exec .clear s = .next t :=
  ⟨_, whenReady_ready (s := s) _ h⟩
theorem writeRaw_next (a : BitVec 5) (d : Nibble) (s : State) (h : s.st = .ready) : ∃ t, exec (.writeRaw a d) s = .next t :=
  ⟨_, whenReady_ready (s := s) _ h⟩
theorem testPattern_next (s : State) (h : s.st = .ready) : ∃ t, exec .testPattern s = .next t :=
  ⟨_, whenReady_ready (s := s) _ h⟩

/-- An initialization answers a next state when not READY. -/
theorem init_next (k : BiasCom) {s : State} (h : s.st ≠ .ready) : ∃ t, initialise k s = .next t := by
  unfold initialise
  rw [if_neg h]
  split
  · simp only
    split <;> exact ⟨_, rfl⟩
  · exact ⟨_, rfl⟩

theorem initCfg_next (k : BitVec 3) {s : State} (hk : k.toNat < 6) (h : s.st ≠ .ready) : ∃ t, exec (.initCfg k) s = .next t := by
  show ∃ t, execInitCfg k s = .next t
  unfold execInitCfg
  rw [dif_pos hk]
  exact init_next _ h

/-- A step answers a next state when the decoded operation does. -/
theorem step_answers {s : State} {p : Presented} {rest : List Presented} {i : Instr} (hr : s.requests = p :: rest)
    (hb : s.busy = false) (hd : decode p.word = .ok i) (he : ∃ t, exec i (accept p rest s) = .next t) :
    ∃ t, step s = .next t := by
  obtain ⟨t, he⟩ := he
  refine ⟨{ t with busy := false }, ?_⟩
  unfold step
  simp only [hr, hb, hd, he, release, Bool.false_eq_true, if_false]

theorem step_clear_next : ∃ t, step (presented ready (.request 0x200000000000#48)) = .next t :=
  step_answers rfl rfl test_decode_clear (clear_next _ rfl)

theorem step_writeRaw_next : ∃ t, step (presented ready (.request 0x300000000C0A#48)) = .next t :=
  step_answers (i := .writeRaw 12 0xA) rfl rfl (by decide) (writeRaw_next _ _ _ rfl)

theorem step_testPattern_next : ∃ t, step (presented ready (.request 0x800000000000#48)) = .next t :=
  step_answers rfl rfl test_decode_testPattern (testPattern_next _ rfl)

theorem step_reset_next : ∃ t, step (State.reset.withFetchWord 48 0x100000000003) = .next t :=
  step_answers (i := .initCfg 3) rfl rfl (by decide) (initCfg_next 3 (by decide) (fun h => nomatch h))

theorem witness_DecodeEncodeAgree : Instr.WellFormed (.initCfg 5) ∧ Instr.WellFormed (.sendCommand otherCode) ∧
    Instr.WellFormed (.writeMemory 63 15) := ⟨test_wf_initCfg_5, otherCode_not_named, trivial⟩

theorem witness_RequestWordsHaveOneMeaning : decode (.request 0x100000000005#48) = .ok (.initCfg 5) := by decide

theorem witness_StepRunsTheDecodedOperation :
    (presented ready (.request 0x300000000C0A#48)).requests = ⟨.request 0x300000000C0A#48, ready.readyIn, ready.cfgokIn⟩ :: [] ∧
      (presented ready (.request 0x300000000C0A#48)).busy = false ∧
      decode (.request 0x300000000C0A#48) = .ok (.writeRaw 12 0xA) := by decide

/-- Clause (ii): an operation that is refused. -/
theorem witness_StepRunsTheDecodedOperation_refused :
    decode (.request 0x200000000000#48) = .ok .clear ∧ stop (exec .clear { fresh with busy := true }) = some .notReady := by
  decide

theorem witness_StepIdleBusyAndMalformed : ready.requests = [] ∧
    (presented ready (.request 0#48)).requests ≠ [] ∧ { presented ready (.request 0#48) with busy := true }.busy = true ∧
    (presented ready (.frame [])).busy = false ∧ decode (.frame []) = .error .malformedFrame := by decide

theorem witness_EveryRequestFreesThePort :
    (∃ p rest, (presented ready (.request 0x300000000C0A#48)).requests = p :: rest) ∧
      ∃ t, step (presented ready (.request 0x300000000C0A#48)) = .next t :=
  ⟨⟨_, _, rfl⟩, step_writeRaw_next⟩

/-- `OP` 9 and F, `k` 6 and 7: both ends of each range. -/
theorem witness_IllegalRequestTakesBadRequest :
    9 ≤ ((0x900000000000#48).extractLsb' 44 4).toNat ∧ 9 ≤ ((0xF00000000000#48).extractLsb' 44 4).toNat ∧
      ((0x100000000006#48).extractLsb' 44 4 = 1#4 ∧ 6 ≤ ((0x100000000006#48).extractLsb' 0 3).toNat) ∧
      ((0x100000000007#48).extractLsb' 44 4 = 1#4 ∧ 6 ≤ ((0x100000000007#48).extractLsb' 0 3).toNat) ∧
      (presented fresh (.request 0x900000000000#48)).busy = false ∧ 6 ≤ (6 : BitVec 3).toNat := by decide

theorem witness_SendBitsIsMostSignificantFirst : { ready.bus with rxBits := some [] }.rxBits = some [] := rfl

theorem witness_SendCommandSendsItsFrame : ready.bus.Idle := ready_idle

theorem witness_UnnamedCommandChangesNoFlag : ready.bus.Idle ∧ ¬ IsNamedCode otherCode := ⟨ready_idle, otherCode_not_named⟩

/-- Address 31, the last cell. -/
theorem witness_WriteMemoryWritesItsCell : ready.bus.Idle ∧ (31 : BitVec 6).toNat < 32 ∧ ready.bus.mem ≠ .poisoned :=
  ⟨ready_idle, by decide, by decide⟩

theorem witness_MapperStaysInTheDisplay : (0 : Nat) < 6 ∧ (5 : Nat) < 6 := by decide

/-- Addresses 32 and 63, the ends of the range. -/
theorem witness_WriteOutsideMemoryPoisons : ready.bus.Idle ∧ 32 ≤ (32 : BitVec 6).toNat ∧ 32 ≤ (63 : BitVec 6).toNat :=
  ⟨ready_idle, by decide, by decide⟩

theorem witness_NamedCommandsRecordTheirFlag : ready.bus.Idle ∧
    ready.bus.controller = .flags ⟨true, true, true, some 3⟩ := ⟨ready_idle, rfl⟩

theorem witness_FramingOperationsAlwaysComplete : ¬ IsHostOperation (.writeMemory 0 0) ∧
    ¬ IsHostOperation .sendCommandBiasCom5 := ⟨not_false, not_false⟩

/-- `k = 5`, from RESET and from FAILED. -/
theorem witness_InitializationSucceeds : (5 : BitVec 3).toNat < 6 ∧ fresh.st ≠ .ready ∧ { fresh with st := .failed }.st ≠ .ready ∧
    (∀ l, fresh.readyIn.get l = true) ∧ (∀ l, fresh.cfgokIn.get l = true) ∧ fresh.bus.controller ≠ .poisoned :=
  ⟨by decide, by decide, by decide, fun l => by cases l <;> rfl, fun l => by cases l <;> rfl, by decide⟩

/-- The five failing rows of V-P5. -/
theorem witness_FailedInitTakesDeviceNotReady : fresh.st ≠ .ready ∧
    failedInitEvents ⟨false, true, true⟩ ⟨true, true, true⟩ = some [] ∧
    failedInitEvents ⟨true, true, false⟩ ⟨true, true, true⟩ = some [] ∧
    failedInitEvents ⟨true, true, true⟩ ⟨false, true, true⟩ = some [] ∧
    failedInitEvents ⟨true, true, true⟩ ⟨true, false, true⟩ = some [.cfg .cs true] ∧
    failedInitEvents ⟨true, true, true⟩ ⟨true, true, false⟩ = some [.cfg .cs true, .cfg .wr true] := by decide

/-- Both sides of each clause: READY, and RESET and FAILED. -/
theorem witness_AcceptanceByLifeCycle : ready.st = .ready ∧ (5 : BitVec 3).toNat < 6 ∧ IsDisplayOperation .clear ∧
    fresh.st ≠ .ready ∧ { fresh with st := .failed }.st ≠ .ready := ⟨rfl, by decide, trivial, by decide, by decide⟩

theorem witness_ClearZeroesEveryCell : ready.st = .ready ∧ ready.bus.Idle ∧ ready.bus.mem ≠ .poisoned ∧
    fresh.st ≠ .ready := ⟨rfl, ready_idle, by decide, by decide⟩

theorem witness_WriteRawWritesItsCell : ready.st = .ready ∧ ready.bus.Idle ∧ ready.bus.mem ≠ .poisoned ∧
    fresh.st ≠ .ready := ⟨rfl, ready_idle, by decide, by decide⟩

/-- Position 5, the last shown. -/
theorem witness_DisplayDigitShowsItsPattern : ready.st = .ready ∧ ready.bus.Idle ∧ (5 : BitVec 8).toNat < 6 ∧
    ready.bus.mem ≠ .poisoned := ⟨rfl, ready_idle, by decide, by decide⟩

/-- Positions 6 and 255, the ends of the dropped range. -/
theorem witness_DisplayDigitBeyondTheDisplayIsNoOp : ready.st = .ready ∧ 6 ≤ (6 : BitVec 8).toNat ∧
    6 ≤ (255 : BitVec 8).toNat := ⟨rfl, by decide, by decide⟩

theorem witness_DisplayNumberShowsTheValue : ready.st = .ready ∧ ready.bus.Idle ∧ fresh.st ≠ .ready :=
  ⟨rfl, ready_idle, by decide⟩

theorem witness_MostNegativeNumberIsExact : ready.st = .ready ∧ ready.bus.Idle := ⟨rfl, ready_idle⟩

/-- 2147483.5, the largest admitted value, and its negative (V-F21). -/
theorem witness_DisplayFloatShowsTheValue : ready.st = .ready ∧ ready.bus.Idle ∧
    ((0x4A03126E : BitVec 32).setWidth 31 : BitVec 31).toNat ≤ 0x4A03126E ∧
    ((0xCA03126E : BitVec 32).setWidth 31 : BitVec 31).toNat ≤ 0x4A03126E := ⟨rfl, ready_idle, by decide, by decide⟩

/-- 2147483.75, an infinity and a NaN lie outside (V-F21). -/
theorem witness_FloatOutsideDomainIsRefused : ready.st = .ready ∧
    0x4A03126E < ((0x4A03126F : BitVec 32).setWidth 31 : BitVec 31).toNat ∧
    0x4A03126E < ((0xFF800000 : BitVec 32).setWidth 31 : BitVec 31).toNat ∧
    0x4A03126E < ((0x7FC00000 : BitVec 32).setWidth 31 : BitVec 31).toNat := ⟨rfl, by decide, by decide, by decide⟩

/-- -1 and -128, 4 and 127. -/
theorem witness_FloatDecimalsAreClamped : (0xFF : BitVec 8).toInt < 0 ∧ (0x80 : BitVec 8).toInt < 0 ∧
    3 < (4 : BitVec 8).toInt ∧ 3 < (0x7F : BitVec 8).toInt := by decide

/-- A scaling function that answers 3141 and 98764 on the two data. -/
theorem witness_PinnedFloatExamples :
    (fun m : BitVec 31 => if m = 0x40490FD0 then 3141 else 98764) (0x40490FD0 : BitVec 31) = 3141 ∧
      (fun m : BitVec 31 => if m = 0x40490FD0 then 3141 else 98764) (0x42C587AE : BitVec 31) = 98764 := by decide

/-- 12.5: the product 12500 is a binary32 value, below 2^24. -/
theorem witness_ScaleCandidatesAgree : 12500 < 2 ^ 24 ∧ floatTimes2p149 0x41480000 * 1000 = 12500 * 2 ^ 149 ∧
    floatTimes2p149 0x41480000 * 1000 < 2 ^ 24 * 2 ^ 149 ∧
    (0x41033333 : BitVec 31).toNat ≤ (0x41480000 : BitVec 31).toNat := by decide

/-- 8.2: the pair on which the candidates differ by one (V-F18). -/
theorem witness_ScaleCandidatesDiffer : scaleExact 0x41033333 = 8199 ∧ scaleF32 0x41033333 = 8200 := by decide

theorem witness_DisplayHexShowsSixNibbles : ready.st = .ready ∧ ready.bus.Idle ∧ fresh.st ≠ .ready :=
  ⟨rfl, ready_idle, by decide⟩

theorem witness_TestPatternCyclesTheDigits : ready.st = .ready ∧ ready.bus.Idle ∧ ready.bus.mem ≠ .poisoned :=
  ⟨rfl, ready_idle, by decide⟩

theorem witness_FormattersWriteTwelveCellsInOrder : ready.st = .ready ∧ ready.bus.Idle ∧
    ready.bus.mem ≠ .poisoned ∧ (∃ value lz, Instr.displayNumber 0 true = .displayNumber value lz) ∧
    (∃ value, Instr.displayHex 0 = .displayHex value) ∧
    ∃ value decimals, Instr.displayFloat 0x4A03126E 3 = .displayFloat value decimals ∧
      (value.setWidth 31 : BitVec 31).toNat ≤ 0x4A03126E :=
  ⟨rfl, ready_idle, by decide, ⟨_, _, rfl⟩, ⟨_, rfl⟩, ⟨_, _, rfl, by decide⟩⟩

theorem witness_DisplayOperationsAlwaysComplete : IsDisplayOperation (.displayFloat 0x4A03126E 3) ∧ ready.st = .ready ∧
    ∀ value decimals, Instr.displayFloat 0x4A03126E 3 = .displayFloat value decimals →
      (value.setWidth 31 : BitVec 31).toNat ≤ 0x4A03126E := by
  refine ⟨trivial, rfl, ?_⟩
  rintro value decimals ⟨⟩
  decide

/-- `poisonedReady` with another answer of the platform. -/
def otherReady : State := { poisonedReady with readyIn := ⟨false, true, true⟩ }

/-- Two different states with different answers, for WRITE_RAW. -/
theorem witness_PinEventsDependOnOperandsOnly :
    (∃ t, exec (.writeRaw 1 2) ready = .next t) ∧ (∃ t, exec (.writeRaw 1 2) otherReady = .next t) ∧
      ready.readyIn ≠ otherReady.readyIn ∧
      (Instr.writeRaw 1 2 = .init ∨ (∃ k, Instr.writeRaw 1 2 = .initCfg k) →
        ready.readyIn = otherReady.readyIn ∧ ready.cfgokIn = otherReady.cfgokIn) :=
  ⟨writeRaw_next _ _ _ rfl, writeRaw_next _ _ _ rfl, by decide, by simp⟩

/-- Two different states with the same answers, for INIT. -/
theorem witness_PinEventsDependOnOperandsOnly_init :
    (∃ t, exec .init fresh = .next t) ∧ (∃ t, exec .init { fresh with st := .failed, cfg := 5 } = .next t) ∧
      fresh ≠ { fresh with st := .failed, cfg := 5 } :=
  ⟨init_next Config.defaultBiasCom (s := fresh) (by decide),
    init_next Config.defaultBiasCom (s := { fresh with st := .failed, cfg := 5 }) (by decide), by decide⟩

theorem witness_PinEventCounts : (∃ t, exec .clear ready = .next t) ∧ (∃ t, exec (.initCfg 0) fresh = .next t) :=
  ⟨clear_next _ rfl, initCfg_next 0 (by decide) (by decide)⟩

/-- One witness for each of the three outcomes. -/
theorem witness_HostOperationOutcomes : IsHostOperation .clear ∧ (∃ t, exec .clear ready = .next t) ∧
    IsHostOperation .init ∧ (∃ t, exec .init { fresh with readyIn := ⟨true, false, true⟩ } = .next t) ∧
    IsHostOperation (.initCfg 6) ∧ (∃ t, exec (.initCfg 6) fresh = .next t) :=
  ⟨trivial, clear_next _ rfl, trivial, init_next Config.defaultBiasCom (s := { fresh with readyIn := ⟨true, false, true⟩ }) (by decide),
    trivial, ⟨_, rfl⟩⟩

theorem witness_LifeCycleTransitions : (∃ t, step (presented ready (.request 0x200000000000#48)) = .next t) ∧
    ready.st = .ready ∧ ready.st ≠ .reset ∧ Instr.clear ≠ .init ∧ ∀ k, Instr.clear ≠ .initCfg k :=
  ⟨step_clear_next, rfl, by decide, by decide, fun k => by simp⟩

theorem witness_HostOperationsNeverSwitchOff : IsHostOperation .clear ∧ (∃ t, exec .clear ready = .next t) ∧
    (ready.st = .ready → ready.bus.Idle) := ⟨trivial, clear_next _ rfl, fun _ => ready_idle⟩

theorem witness_TracesOnlyGrow : ∃ t, step (presented ready (.request 0x200000000000#48)) = .next t :=
  step_clear_next

/-- A trace of two blocks. -/
theorem witness_EveryEdgeIsDelayed :
    TraceOfBlocks { ready with pinTrace := [PinEvent.delayMs 100] ++ writeMemoryEvents 4 7 } :=
  ⟨[.wait 100, .frame (.write 4 7)], by simp [TraceBlock.events, frameEvents]⟩

theorem witness_StepKeepsMemoryCanonical : MemoryCanonical (presented ready (.request 0x200000000000#48)) ∧
    ∃ t, step (presented ready (.request 0x200000000000#48)) = .next t := ⟨rfl, step_clear_next⟩

theorem witness_StepKeepsReadyLinesAtRest : ReadyMeansAtRest (presented ready (.request 0x200000000000#48)) ∧
    ∃ t, step (presented ready (.request 0x200000000000#48)) = .next t :=
  ⟨fun _ => ⟨ready_idle, rfl⟩, step_clear_next⟩

theorem witness_StepKeepsBusFollowingTrace : BusFollowsTrace (State.reset.withFetchWord 48 0x100000000003) ∧
    ∃ t, step (State.reset.withFetchWord 48 0x100000000003) = .next t := ⟨rfl, step_reset_next⟩

theorem witness_StepKeepsTraceOfBlocks : TraceOfBlocks (State.reset.withFetchWord 48 0x100000000003) ∧
    ∃ t, step (State.reset.withFetchWord 48 0x100000000003) = .next t := ⟨⟨[], rfl⟩, step_reset_next⟩

theorem witness_ReadyFramesAreTheFramesOnTheWire : ready.st = .ready ∧ ready.bus.Idle ∧
    ∃ t, step (presented ready (.request 0x800000000000#48)) = .next t :=
  ⟨rfl, ready_idle, step_testPattern_next⟩

theorem witness_PoisonStays : (∃ t, step (presented poisonedReady (.request 0x200000000000#48)) = .next t) ∧
    (presented poisonedReady (.request 0x200000000000#48)).bus.mem = .poisoned ∧
    (presented poisonedReady (.request 0x200000000000#48)).bus.controller = .poisoned :=
  ⟨step_answers rfl rfl test_decode_clear (clear_next _ rfl), rfl, rfl⟩

end Sys2Proof.Tests
end

section
/-! PROOFS. The family 10_state: what each operation and each step writes of the driver's state and what the receiver makes
of it. First the lemmas on single operations, then on the step, then the obligations. -/

namespace Sys2Proof.Machine

/-! ### Single operations, inverted -/

/-- `send_command` answers in every state (R90). -/
@[simp] theorem exec_sendCommand (c : BitVec 8) (s : State) : exec (.sendCommand c) s = .next (sendCommand c s) := rfl

/-- `send_command` on a wire at rest: the receiver has the frame, and the wire is at rest again (R54, R90). -/
theorem sendCommand_bus (c : BitVec 8) {s : State} (h : s.bus.Idle) :
    (sendCommand c s).bus =
      { s.bus.receive (.cmd c) with lvl := ⟨true, true, c.getLsbD 0⟩, rxBits := none } :=
  observeAll_frameEvents h (.cmd c)

/-- A legal INIT_CFG is the initialization with its operand (R93). -/
theorem exec_initCfg_of_legal {k : BitVec 3} (hk : k.toNat < 6) (s : State) :
    exec (.initCfg k) s = initialise ⟨k.toNat, hk⟩ s := dif_pos hk

/-- An illegal INIT_CFG takes BAD_REQUEST (R147). -/
theorem exec_initCfg_of_illegal {k : BitVec 3} (hk : ¬ k.toNat < 6) (s : State) :
    exec (.initCfg k) s = .next (takeBadRequest s) := dif_neg hk

/-- An initialization never starts in READY and never ends in RESET (R22, R98). -/
theorem initialise_lifeCycle {k : BiasCom} {s t : State} (h : initialise k s = .next t) :
    s.st ≠ .ready ∧ t.st ≠ .reset := by
  obtain ⟨hst, -, -, -, ⟨ht, -⟩ | ⟨ht, -⟩⟩ := initialise_next h <;> simp [hst, ht]

/-- A framing operation that answers a next state sent exactly one frame (R90 to R92). -/
theorem framing_next {i : Instr} (hi : ¬ IsHostOperation i) {s t : State} (h : exec i s = .next t) :
    ∃ f, Sent [f] s t := by
  have command : ∀ c, Host.Outcome.next (φ := Fault) (ρ := Refusal) (sendCommand c s) = .next t → ∃ f, Sent [f] s t := by
    rintro c ⟨⟩
    exact ⟨_, sent_sendCommand c s⟩
  cases i with
  | init | initCfg | clear | writeRaw | displayDigit | displayNumber | displayFloat | displayHex | testPattern =>
    exact absurd trivial hi
  | writeMemory a d =>
    cases h
    exact ⟨_, sent_writeMemory a d s⟩
  | _ => exact command _ h

/-- Every operation but INIT and INIT_CFG leaves the driver's and the host's fields as they were. -/
theorem driverFrame_of_exec {i : Instr} {s t : State} (h : exec i s = .next t) (hinit : i ≠ .init)
    (hcfg : ∀ k, i ≠ .initCfg k) : DriverFrame s t := by
  have display : IsDisplayOperation i → DriverFrame s t := fun hi => (display_next hi h).2.2.2
  have framing : ¬ IsHostOperation i → DriverFrame s t := fun hi => by
    obtain ⟨f, hf⟩ := framing_next hi h
    exact hf.driverFrame
  cases i with
  | init => exact absurd rfl hinit
  | initCfg k => exact absurd rfl (hcfg k)
  | clear | writeRaw | displayDigit | displayNumber | displayFloat | displayHex | testPattern => exact display trivial
  | _ => exact framing not_false

/-- What an operation can do to `ST` and `CFG`: nothing, or it is an initialization, which starts outside READY and ends
outside RESET. -/
theorem exec_lifeCycle {i : Instr} {s t : State} (h : exec i s = .next t) :
    (t.st = s.st ∧ t.cfg = s.cfg) ∨ (s.st ≠ .ready ∧ t.st ≠ .reset) := by
  cases i with
  | init => exact .inr (initialise_lifeCycle h)
  | initCfg k =>
    by_cases hk : k.toNat < 6
    · rw [exec_initCfg_of_legal hk] at h
      exact .inr (initialise_lifeCycle h)
    · rw [exec_initCfg_of_illegal hk] at h
      cases h
      exact .inl ⟨rfl, rfl⟩
  | _ =>
    have hd := driverFrame_of_exec h (by simp) (by simp)
    exact .inl ⟨hd.st, hd.cfg⟩

/-- Only INIT and INIT_CFG look at the platform's answers (R24, R32). -/
theorem opBlocks_congr {i : Instr} {ready cfgok ready' cfgok' : LineMap Bool}
    (h : i = .init ∨ (∃ k, i = .initCfg k) → ready = ready' ∧ cfgok = cfgok') :
    opBlocks i ready cfgok = opBlocks i ready' cfgok' := by
  cases i with
  | init =>
    obtain ⟨rfl, rfl⟩ := h (.inl rfl)
    rfl
  | initCfg k =>
    obtain ⟨rfl, rfl⟩ := h (.inr ⟨k, rfl⟩)
    rfl
  | _ => rfl

/-! ### The receiver flags -/

/-- A byte that is no named code changes no flag, poisoned or not (R30). -/
theorem Controller.receive_of_unnamed {c : BitVec 8} (hc : ¬ IsNamedCode c) (k : Controller) : k.receive c = k := by
  cases k with
  | flags f => simp [Controller.receive, Flags.receive, (commandOf_eq_none_iff c).2 hc]
  | poisoned => rfl

/-- The code of a named command records that command (R92). -/
@[simp] theorem Controller.receive_cmdCode (n : SysCommand) (f : Flags) :
    (Controller.flags f).receive (Config.cmdCode n) = .flags (f.record n) := by
  simp [Controller.receive, Flags.receive]

/-! ### A successful initialization -/

/-- The frames of the initialization sequence, in order (R93). -/
def initFrames (k : BiasCom) : List Frame :=
  [.cmd (Config.cmdCode (.biasCom k)), .cmd (Config.cmdCode .osc), .cmd (Config.cmdCode .sysEn),
    .cmd (Config.cmdCode .lcdOn)]

theorem initCommands_eq (k : BiasCom) : initCommands k = (initFrames k).flatMap frameEvents := by
  simp [initCommands, initFrames, frameEvents]

/-- The four commands set the four flags, whatever they were (R35, R93). -/
theorem controllerAfter_initFrames (k : BiasCom) (f : Flags) :
    controllerAfter (initFrames k) (.flags f) = .flags ⟨true, true, true, some k⟩ := by
  simp [controllerAfter, initFrames, Flags.record]

/-- A list of frames sent while CS and WR are high arrives whole, even if a frame was left open before: its first preamble
discards what was sampled (R54). -/
theorem observeAll_frames_of_high {b : Bus} (hc : b.lvl.cs = true) (hw : b.lvl.wr = true) (f : Frame)
    (rest : List Frame) :
    b.observeAll ((f :: rest).flatMap frameEvents) =
      { b with
        lvl := ⟨true, true, dataAfter (f :: rest) b.lvl.data⟩
        rxBits := none
        frames := b.frames ++ f :: rest
        mem := memAfter (f :: rest) b.mem
        controller := controllerAfter (f :: rest) b.controller } := by
  have idle : ({ b with rxBits := none } : Bus).Idle := ⟨hc, hw, rfl⟩
  have first : b.observeAll (frameEvents f) = ({ b with rxBits := none } : Bus).observeAll (frameEvents f) := by
    rw [observeAll_frameEvents_of_high hc hw, observeAll_frameEvents idle]
    cases f <;> rfl
  rw [List.flatMap_cons, observeAll_append, first, ← observeAll_append, ← List.flatMap_cons, observeAll_frames idle]

/-- With all six answers true an initialization configures the three lines, waits and sends its commands (R93). -/
theorem initialise_of_allAnswersTrue (k : BiasCom) {s : State} (hst : s.st ≠ .ready) (ha : AllAnswersTrue s) :
    initialise k s = .next (markReady (performAll (powerUp k)
      (performAll [.cfg .cs true, .cfg .wr true, .cfg .data true] { s with cfg := k }))) := by
  obtain ⟨hr, hcs, hwr, hdata⟩ := ha
  simp [initialise, hst, hr, configureLines_inOrder, hcs, hwr, hdata]

/-- What the receiver makes of a successful initialization, from any wire (R35). -/
theorem observeAll_initialization (k : BiasCom) {b : Bus} {f : Flags} (hf : b.controller = .flags f) :
    (b.observeAll [.cfg .cs true, .cfg .wr true, .cfg .data true]).observeAll (powerUp k) =
      { dir := ⟨.output, .output, .output⟩
        lvl := ⟨true, true, (Config.cmdCode .lcdOn).getLsbD 0⟩
        rxBits := none
        frames := b.frames ++ initFrames k
        mem := b.mem
        controller := .flags ⟨true, true, true, some k⟩ } := by
  have configured : b.observeAll [.cfg .cs true, .cfg .wr true, .cfg .data true] =
      { b with dir := ⟨.output, .output, .output⟩, lvl := ⟨true, true, true⟩ } := rfl
  rw [configured, powerUp, observeAll_cons, observe_delayMs, initCommands_eq, initFrames,
    observeAll_frames_of_high rfl rfl, ← initFrames, hf, controllerAfter_initFrames]
  rfl

/-- A successful initialization answers the state of R35. -/
theorem initialise_eq_afterInit (k : BiasCom) {s : State} (hst : s.st ≠ .ready) (ha : AllAnswersTrue s)
    (hc : s.bus.controller ≠ .poisoned) : initialise k s = .next (afterInit k s) := by
  obtain ⟨f, hf⟩ : ∃ f, s.bus.controller = .flags f := by
    cases h : s.bus.controller with
    | flags f => exact ⟨f, rfl⟩
    | poisoned => exact absurd h hc
  rw [initialise_of_allAnswersTrue k hst ha]
  simp only [markReady, performAll, observeAll_initialization k hf]
  simp [afterInit, initFrames, powerUp, initCommands, Config.tPowerupMs]

/-! ### The step -/

/-- A bus and a trace that follow the same pin events stay together (R31). -/
theorem BusFollowsTrace.observe {s t : State} {events : List PinEvent} (hs : BusFollowsTrace s)
    (htrace : t.pinTrace = s.pinTrace ++ events) (hbus : t.bus = s.bus.observeAll events) : BusFollowsTrace t := by
  unfold BusFollowsTrace at *
  rw [htrace, hbus, observeAll_append, hs]

/-- What a step can do to `ST` and `CFG`: nothing, or it runs an initialization, which starts outside READY and ends outside
RESET. -/
theorem step_lifeCycle {s t : State} (h : step s = .next t) :
    (t.st = s.st ∧ t.cfg = s.cfg) ∨ (s.st ≠ .ready ∧ t.st ≠ .reset) := by
  rcases step_next h with ⟨-, rfl⟩ | ⟨p, rest, -, -, ⟨e, -, rfl⟩ | ⟨i, u, -, he, rfl⟩⟩
  · exact .inl ⟨rfl, rfl⟩
  · exact .inl ⟨rfl, rfl⟩
  · have operation := exec_lifeCycle he
    exact operation

/-! ### The obligations -/

/-- Settles O51: a step performs blocks of pin events that PINTRACE gains and the bus sees, so the two stay together. -/
theorem stepKeepsBusFollowingTrace : Obligations.StepKeepsBusFollowingTrace := by
  intro s t hs h
  obtain ⟨blocks, htrace, hbus⟩ := step_blocks h
  exact hs.observe htrace hbus

/-- Settles O8, by the cases of a step: an illegal request and an operation both keep what `accept` wrote to the port. -/
theorem everyRequestFreesThePort : Obligations.EveryRequestFreesThePort := by
  intro s t p rest hr h
  rcases step_next h with ⟨hnil, -⟩ | ⟨p', rest', hr', -, hcase⟩
  · simp [hnil] at hr
  · obtain ⟨rfl, rfl⟩ : p' = p ∧ rest' = rest := by simpa [hr] using hr'.symm
    rcases hcase with ⟨e, -, rfl⟩ | ⟨i, u, -, he, rfl⟩
    · exact ⟨rfl, rfl, rfl, rfl⟩
    · have hd := exec_drove he
      exact ⟨hd.requests, rfl, hd.readyIn, hd.cfgokIn⟩

/-- Settles O14: the frame arrives whole and the receiver records nothing for its byte. -/
theorem unnamedCommandChangesNoFlag : Obligations.UnnamedCommandChangesNoFlag := by
  intro c s hidle hc
  have hbus := sendCommand_bus c hidle
  have hflags := s.bus.controller.receive_of_unnamed hc
  exact ⟨sendCommand c s, exec_sendCommand c s, by simp [hbus, Bus.receive, hflags], by simp [hbus, Bus.receive],
    by simp [hbus]⟩

/-- Settles O19, for INIT_CFG and for INIT alike by the state an initialization answers. -/
theorem initializationSucceeds : Obligations.InitializationSucceeds := by
  intro s hst hready hcfgok hc
  have ha : AllAnswersTrue s := ⟨List.all_eq_true.2 fun l _ => hready l, hcfgok .cs, hcfgok .wr, hcfgok .data⟩
  refine ⟨fun k hk => ?_, initialise_eq_afterInit _ hst ha hc⟩
  rw [exec_initCfg_of_legal hk]
  exact initialise_eq_afterInit _ hst ha hc

/-- Settles O41: the blocks an operation performs are a function of the operation, and for an initialization of the
platform's answers. -/
theorem pinEventsDependOnOperandsOnly : Obligations.PinEventsDependOnOperandsOnly := by
  intro i s s' t t' h h' hanswers
  refine ⟨(opBlocks i s.readyIn s.cfgokIn).flatMap TraceBlock.events, (exec_drove h).trace, ?_⟩
  rw [opBlocks_congr hanswers]
  exact (exec_drove h').trace

/-- Settles O44, by what a step can do to `ST` and `CFG`. -/
theorem lifeCycleTransitions : Obligations.LifeCycleTransitions := by
  refine ⟨fun s t h => ?_, fun i s t h hinit hcfg => ?_⟩
  · rcases step_lifeCycle h with ⟨hst, hcfg⟩ | ⟨hs, ht⟩
    · exact ⟨fun hr => ⟨hst.trans hr, hcfg⟩, fun hr => hst ▸ hr⟩
    · exact ⟨fun hr => absurd hr hs, fun _ => ht⟩
  · have hd := driverFrame_of_exec h hinit hcfg
    exact ⟨hd.st, hd.cfg⟩

/-- Settles O46: a step appends pin events to PINTRACE, and pin events only append to FRAMES. -/
theorem tracesOnlyGrow : Obligations.TracesOnlyGrow := by
  intro s t h
  obtain ⟨blocks, htrace, hbus⟩ := step_blocks h
  rw [htrace, hbus]
  exact ⟨List.prefix_append _ _, frames_observeAll _ _⟩

/-- Settles O10: each value is the one the reset state is defined with, and `MEM` lists no cell. -/
theorem resetValues : Obligations.ResetValues :=
  ⟨rfl, rfl, rfl, rfl, rfl, rfl, rfl, rfl, fun _ => rfl⟩

/-- Settles O48: nothing is written, `ST` is not READY, and the empty trace is the empty list of blocks. -/
theorem invariantsHoldAtReset : Obligations.InvariantsHoldAtReset :=
  ⟨wf_reset, fun hready => absurd hready (by decide), rfl, [], rfl⟩

end Sys2Proof.Machine
end

section
/-! PROOFS. The family 20_memory: what steps and frames do to `MEM`, to the traces and to poison, and which bit strings are
frames. First the lemmas on frames and the receiver, then the obligations. -/

namespace Sys2Proof

/-! ### Which bit strings are frames -/

/-- Three bits are read back from the number they stand for. -/
theorem bitsMsbFirst_natOfBits_three (a b c : Bool) : bitsMsbFirst (natOfBits [a, b, c]) 3 = [a, b, c] := by
  revert a b c
  decide

/-- The first three bits of a string, as a number, tell which bits they are. -/
theorem natOfBits_take_three_eq_iff {bits : List Bool} (hlen : 3 ≤ bits.length) {v : Nat} (hv : v < 2 ^ 3) :
    natOfBits (bits.take 3) = v ↔ bits.take 3 = bitsMsbFirst v 3 := by
  constructor
  · match bits, hlen with
    | a :: b :: c :: rest, _ =>
      rintro rfl
      exact (bitsMsbFirst_natOfBits_three a b c).symm
  · intro h
    rw [h, natOfBits_bitsMsbFirst, Nat.mod_eq_of_lt hv]

/-- A bit string is no frame exactly when it has neither the length and beginning of a command frame nor those of a
memory-write frame (R54, R55). -/
theorem frameOfBits_eq_none_iff (bits : List Bool) :
    frameOfBits bits = none ↔
      ¬ (bits.length = 11 ∧ bits.take 3 = bitsMsbFirst prefixCmd 3) ∧
      ¬ (bits.length = 13 ∧ bits.take 3 = bitsMsbFirst prefixWrite 3) := by
  have cmd : bits.length = 11 ∧ natOfBits (bits.take 3) = prefixCmd ↔
      bits.length = 11 ∧ bits.take 3 = bitsMsbFirst prefixCmd 3 :=
    and_congr_right fun hlen => natOfBits_take_three_eq_iff (by omega) (by decide)
  have write : bits.length = 13 ∧ natOfBits (bits.take 3) = prefixWrite ↔
      bits.length = 13 ∧ bits.take 3 = bitsMsbFirst prefixWrite 3 :=
    and_congr_right fun hlen => natOfBits_take_three_eq_iff (by omega) (by decide)
  rw [← cmd, ← write]
  unfold frameOfBits
  split
  · rename_i h
    exact iff_of_false (by simp) fun hno => hno.1 h
  · rename_i hcmd
    split
    · rename_i h
      exact iff_of_false (by simp) fun hno => hno.2 h
    · rename_i hwrite
      exact iff_of_true rfl ⟨hcmd, hwrite⟩

/-- The wire decoder rejects exactly the bit strings that are no frame. -/
theorem decode_frame_eq_malformedFrame_iff (bits : List Bool) :
    decode (.frame bits) = .error .malformedFrame ↔ frameOfBits bits = none := by
  cases h : frameOfBits bits <;> simp [decode, h]

end Sys2Proof

namespace Sys2Proof.Machine

/-! ### Frames and the receiver -/

/-- `write_memory` answers in every state (R91). -/
@[simp] theorem exec_writeMemory (a : BitVec 6) (d : Nibble) (s : State) :
    exec (.writeMemory a d) s = .next (writeMemory a d s) := rfl

/-- `write_memory` on a wire at rest: the receiver has the frame, and the wire is at rest again (R54, R91). -/
theorem writeMemory_bus (a : BitVec 6) (d : Nibble) {s : State} (h : s.bus.Idle) :
    (writeMemory a d s).bus =
      { s.bus.receive (.write a d) with lvl := ⟨true, true, d.getLsbD 0⟩, rxBits := none } :=
  observeAll_frameEvents h (.write a d)

/-- Poison stays under any pin events (log 9). -/
theorem poisoned_observeAll (b : Bus) (events : List PinEvent) :
    (b.mem = .poisoned → (b.observeAll events).mem = .poisoned) ∧
      (b.controller = .poisoned → (b.observeAll events).controller = .poisoned) := by
  induction events generalizing b with
  | nil => exact ⟨id, id⟩
  | cons e rest ih =>
    obtain ⟨mem, controller⟩ := poisoned_observe b e
    obtain ⟨restMem, restController⟩ := ih (b.observe e)
    exact ⟨restMem ∘ mem, restController ∘ controller⟩

/-! ### The obligations -/

/-- Settles O49: the bus after a step has seen pin events, and every pin event keeps the canonical form. -/
theorem stepKeepsMemoryCanonical : Obligations.StepKeepsMemoryCanonical := by
  intro s t hs h
  obtain ⟨blocks, -, hbus⟩ := step_blocks h
  unfold MemoryCanonical
  rw [hbus]
  exact wf_observeAll _ hs

/-- Settles O52: a step appends whole blocks to a PINTRACE of whole blocks. -/
theorem stepKeepsTraceOfBlocks : Obligations.StepKeepsTraceOfBlocks := by
  rintro s t ⟨before, hbefore⟩ h
  obtain ⟨blocks, htrace, -⟩ := step_blocks h
  exact ⟨before ++ blocks, by rw [htrace, hbefore, List.flatMap_append]⟩

/-- Settles O5, by what the frame decoder asks of length and first three bits. -/
theorem onlyTwoFrameFormsDecode : Obligations.OnlyTwoFrameFormsDecode := fun bits =>
  (decode_frame_eq_malformedFrame_iff bits).trans (frameOfBits_eq_none_iff bits)

/-- Settles O16: the frame arrives whole, and its address has no cell. -/
theorem writeOutsideMemoryPoisons : Obligations.WriteOutsideMemoryPoisons := by
  intro a d s hidle ha
  have hbus := writeMemory_bus a d hidle
  have hmem : (writeMemory a d s).bus.mem = .poisoned := by
    rw [hbus]
    exact Memory.write_outside d ha s.bus.mem
  refine ⟨writeMemory a d s, exec_writeMemory a d s, ?_, rfl, hmem, ?_, fun x => ?_⟩
  · simp [hbus]
  · simp [hbus, Bus.receive]
  · rw [hmem]
    rfl

/-- Settles O53: on a wire at rest the blocks a step performs add exactly their frames. -/
theorem readyFramesAreTheFramesOnTheWire : Obligations.ReadyFramesAreTheFramesOnTheWire := by
  intro s t _ hidle h
  obtain ⟨blocks, htrace, hbus⟩ := step_blocks h
  obtain ⟨hcs, hwr, -⟩ := hidle
  refine ⟨blocks, htrace, ?_⟩
  rw [hbus]
  exact (frames_observeAll_blocks blocks hcs hwr).1

/-- Settles O54: the bus after a step has seen pin events, and no pin event lifts poison. -/
theorem poisonStays : Obligations.PoisonStays := by
  intro s t h
  obtain ⟨blocks, -, hbus⟩ := step_blocks h
  rw [hbus]
  exact poisoned_observeAll s.bus _

end Sys2Proof.Machine
end

section
/-! PROOFS. The family 30_encoding: the fields of a request word, the layout of every encoded operation, the decoder case by
case on `OP`, and the step around the decoded operation. First the lemmas, then the obligations. -/

namespace Sys2Proof

open Machine

/-! ### Fields of a request word -/

/-- A field is a concatenation just when its two parts are the two concatenated ones. -/
theorem reqField_eq_append_iff {m n lo : Nat} {x : BitVec m} {y : BitVec n} {w : ReqWord} :
    reqField w lo (m + n) = x ++ y ↔ reqField w (lo + n) m = x ∧ reqField w lo n = y := by
  have cut : reqField w (lo + n) m ++ reqField w lo n = reqField w lo (m + n) :=
    BitVec.extractLsb'_append_extractLsb'_eq_extractLsb' rfl
  constructor
  · intro h
    rw [← cut] at h
    constructor
    · rw [← BitVec.extractLsb'_append_eq_left (a := x) (b := y), ← h, BitVec.extractLsb'_append_eq_left]
    · rw [← BitVec.extractLsb'_append_eq_right (a := x) (b := y), ← h, BitVec.extractLsb'_append_eq_right]
  · rintro ⟨rfl, rfl⟩
    exact cut.symm

/-- A request is a concatenation just when its word is cut into the two parts. -/
theorem request_append_eq_iff {m n : Nat} {x : BitVec m} {y : BitVec n} {w : ReqWord} (h : m + n = 48) :
    PortWord.request ((x ++ y).cast h) = .request w ↔ reqField w n m = x ∧ reqField w 0 n = y := by
  have whole : reqField w 0 (m + n) = w.cast h.symm := by
    apply BitVec.eq_of_toNat_eq
    simp [reqField_toNat, h, Nat.mod_eq_of_lt w.isLt]
  have parts := reqField_eq_append_iff (lo := 0) (x := x) (y := y) (w := w)
  rw [whole, Nat.zero_add] at parts
  rw [← parts, PortWord.request.injEq, eq_comm, BitVec.toNat_eq, BitVec.toNat_eq, BitVec.toNat_cast, BitVec.toNat_cast]

/-- A one-bit field holds a flag just when the decoder reads that flag from it. -/
theorem reqField_eq_ofBool_iff {w : ReqWord} {lo : Nat} {b : Bool} :
    reqField w lo 1 = BitVec.ofBool b ↔ (reqField w lo 1 == 1#1) = b := by
  generalize reqField w lo 1 = f
  revert b f
  decide

/-- A mask keeps a field all of whose bits it has. -/
theorem reqField_kept {w mask : ReqWord} {lo len : Nat} (h : reqField mask lo len = BitVec.allOnes len) :
    reqField (w &&& mask) lo len = reqField w lo len := by
  unfold reqField at *
  rw [BitVec.extractLsb'_and, h, BitVec.and_allOnes]

/-- A mask clears a field none of whose bits it has. -/
theorem reqField_cleared {w mask : ReqWord} {lo len : Nat} (h : reqField mask lo len = 0#len) :
    reqField (w &&& mask) lo len = 0#len := by
  unfold reqField at *
  rw [BitVec.extractLsb'_and, h, BitVec.and_zero]

/-! ### The layout of encoded operations -/

/-- Field by field, `w` is the request word of an operation: its `OP`, its operands, and reserved bits 0 (R71). -/
def Layout (w : ReqWord) : Instr → Prop
  | .init => reqField w 44 4 = 0 ∧ reqField w 0 44 = 0
  | .initCfg k => reqField w 44 4 = 1 ∧ reqField w 3 41 = 0 ∧ reqField w 0 3 = k
  | .clear => reqField w 44 4 = 2 ∧ reqField w 0 44 = 0
  | .writeRaw addr nibble => reqField w 44 4 = 3 ∧ reqField w 13 31 = 0 ∧ reqField w 8 5 = addr ∧ reqField w 4 4 = 0 ∧
    reqField w 0 4 = nibble
  | .displayDigit position digitValue decimalPoint => reqField w 44 4 = 4 ∧ reqField w 24 20 = 0 ∧
    reqField w 16 8 = position ∧ reqField w 8 8 = digitValue ∧ reqField w 1 7 = 0 ∧
    (reqField w 0 1 == 1#1) = decimalPoint
  | .displayNumber value leadingZeros => reqField w 44 4 = 5 ∧ reqField w 33 11 = 0 ∧
    (reqField w 32 1 == 1#1) = leadingZeros ∧ reqField w 0 32 = value
  | .displayFloat value decimals => reqField w 44 4 = 6 ∧ reqField w 40 4 = 0 ∧ reqField w 32 8 = decimals ∧
    reqField w 0 32 = value
  | .displayHex value => reqField w 44 4 = 7 ∧ reqField w 24 20 = 0 ∧ reqField w 0 24 = value
  | .testPattern => reqField w 44 4 = 8 ∧ reqField w 0 44 = 0
  | .sendCommand _ | .writeMemory _ _ | .sendCommandSysDis | .sendCommandSysEn | .sendCommandLcdOff | .sendCommandLcdOn
  | .sendCommandOsc | .sendCommandBiasCom0 | .sendCommandBiasCom1 | .sendCommandBiasCom2 | .sendCommandBiasCom3
  | .sendCommandBiasCom4 | .sendCommandBiasCom5 => False

/-- The encoder writes exactly this layout. -/
theorem encode_eq_request_iff {i : Instr} {w : ReqWord} : encode i = .request w ↔ Layout w i := by
  cases i with
  | init => exact request_append_eq_iff (x := 0#4) (y := 0#44) rfl
  | clear => exact request_append_eq_iff (x := 2#4) (y := 0#44) rfl
  | testPattern => exact request_append_eq_iff (x := 8#4) (y := 0#44) rfl
  | initCfg | writeRaw | displayDigit | displayNumber | displayFloat | displayHex =>
    refine (request_append_eq_iff rfl).trans ?_
    simp only [reqField_eq_append_iff, reqField_eq_ofBool_iff, and_assoc]
    rfl
  | _ => exact iff_of_false PortWord.noConfusion id

/-! ### The decoder, case by case on `OP` (R71, R73) -/

section
variable {w : ReqWord}

theorem decodeRequest_init (h : reqField w 44 4 = 0) : decodeRequest w = .ok .init := by simp [decodeRequest, h]

theorem decodeRequest_initCfg (h : reqField w 44 4 = 1) :
    decodeRequest w = if (reqField w 0 3).toNat < 6 then .ok (.initCfg (reqField w 0 3))
      else .error (.illegalBiasCom (reqField w 0 3)) := by simp [decodeRequest, h]

theorem decodeRequest_clear (h : reqField w 44 4 = 2) : decodeRequest w = .ok .clear := by simp [decodeRequest, h]

theorem decodeRequest_writeRaw (h : reqField w 44 4 = 3) :
    decodeRequest w = .ok (.writeRaw (reqField w 8 5) (reqField w 0 4)) := by simp [decodeRequest, h]

theorem decodeRequest_displayDigit (h : reqField w 44 4 = 4) :
    decodeRequest w = .ok (.displayDigit (reqField w 16 8) (reqField w 8 8) (reqField w 0 1 == 1#1)) := by
  simp [decodeRequest, h]

theorem decodeRequest_displayNumber (h : reqField w 44 4 = 5) :
    decodeRequest w = .ok (.displayNumber (reqField w 0 32) (reqField w 32 1 == 1#1)) := by simp [decodeRequest, h]

theorem decodeRequest_displayFloat (h : reqField w 44 4 = 6) :
    decodeRequest w = .ok (.displayFloat (reqField w 0 32) (reqField w 32 8)) := by simp [decodeRequest, h]

theorem decodeRequest_displayHex (h : reqField w 44 4 = 7) : decodeRequest w = .ok (.displayHex (reqField w 0 24)) := by
  simp [decodeRequest, h]

theorem decodeRequest_testPattern (h : reqField w 44 4 = 8) : decodeRequest w = .ok .testPattern := by
  simp [decodeRequest, h]

theorem decodeRequest_illegalOp {op : BitVec 4} (h : reqField w 44 4 = op) (hillegal : 9 ≤ op.toNat) :
    decodeRequest w = .error (.illegalOp op) := by
  subst h
  unfold decodeRequest
  split
  case h_10 => rfl
  all_goals omega

end

/-- The nine values of `OP` that name an operation, and the rest (R71, R73). -/
theorem op_cases (op : BitVec 4) :
    op = 0 ∨ op = 1 ∨ op = 2 ∨ op = 3 ∨ op = 4 ∨ op = 5 ∨ op = 6 ∨ op = 7 ∨ op = 8 ∨ 9 ≤ op.toNat := by
  revert op
  decide

/-- Clearing the reserved bits keeps `OP` (R73). -/
theorem reqField_op_careMask (w : ReqWord) (op : BitVec 4) : reqField (w &&& careMask op) 44 4 = reqField w 44 4 :=
  reqField_kept (by revert op; decide)

/-- Clearing the reserved bits of an operation's word changes nothing the decoder reads (R73). -/
theorem decodeRequest_careMask {w : ReqWord} {op : BitVec 4} (hop : reqField w 44 4 = op) :
    decodeRequest (w &&& careMask op) = decodeRequest w := by
  have hop' := (reqField_op_careMask w op).trans hop
  rcases op_cases op with rfl | rfl | rfl | rfl | rfl | rfl | rfl | rfl | rfl | hillegal
  · rw [decodeRequest_init hop, decodeRequest_init hop']
  · rw [decodeRequest_initCfg hop, decodeRequest_initCfg hop', reqField_kept (by decide)]
  · rw [decodeRequest_clear hop, decodeRequest_clear hop']
  · rw [decodeRequest_writeRaw hop, decodeRequest_writeRaw hop', reqField_kept (by decide), reqField_kept (by decide)]
  · rw [decodeRequest_displayDigit hop, decodeRequest_displayDigit hop', reqField_kept (by decide),
      reqField_kept (by decide), reqField_kept (by decide)]
  · rw [decodeRequest_displayNumber hop, decodeRequest_displayNumber hop', reqField_kept (by decide),
      reqField_kept (by decide)]
  · rw [decodeRequest_displayFloat hop, decodeRequest_displayFloat hop', reqField_kept (by decide),
      reqField_kept (by decide)]
  · rw [decodeRequest_displayHex hop, decodeRequest_displayHex hop', reqField_kept (by decide)]
  · rw [decodeRequest_testPattern hop, decodeRequest_testPattern hop']
  · rw [decodeRequest_illegalOp hop hillegal, decodeRequest_illegalOp hop' hillegal]

/-- The decoder reads a word with an operation's layout as that operation (R71, R72). -/
theorem decodeRequest_of_layout {i : Instr} {w : ReqWord} (hi : i.WellFormed) (h : Layout w i) :
    decodeRequest w = .ok i := by
  cases i with
  | init => exact decodeRequest_init h.1
  | initCfg k =>
    obtain ⟨hop, -, rfl⟩ := h
    exact (decodeRequest_initCfg hop).trans (if_pos hi)
  | clear => exact decodeRequest_clear h.1
  | writeRaw =>
    obtain ⟨hop, -, rfl, -, rfl⟩ := h
    exact decodeRequest_writeRaw hop
  | displayDigit =>
    obtain ⟨hop, -, rfl, rfl, -, rfl⟩ := h
    exact decodeRequest_displayDigit hop
  | displayNumber =>
    obtain ⟨hop, -, rfl, rfl⟩ := h
    exact decodeRequest_displayNumber hop
  | displayFloat =>
    obtain ⟨hop, -, rfl, rfl⟩ := h
    exact decodeRequest_displayFloat hop
  | displayHex =>
    obtain ⟨hop, -, rfl⟩ := h
    exact decodeRequest_displayHex hop
  | testPattern => exact decodeRequest_testPattern h.1
  | _ => exact h.elim

/-- A word that decodes has, its reserved bits cleared, the layout of what it decodes to (R71, R73). -/
theorem layout_of_decodeRequest {w : ReqWord} {op : BitVec 4} {i : Instr} (hop : reqField w 44 4 = op)
    (h : decodeRequest w = .ok i) : i.WellFormed ∧ Layout (w &&& careMask op) i := by
  have hop' := (reqField_op_careMask w op).trans hop
  rcases op_cases op with rfl | rfl | rfl | rfl | rfl | rfl | rfl | rfl | rfl | hillegal
  · cases (decodeRequest_init hop).symm.trans h
    exact ⟨trivial, hop', reqField_cleared (by decide)⟩
  · rw [decodeRequest_initCfg hop] at h
    split at h
    · rename_i hk
      cases h
      exact ⟨hk, hop', reqField_cleared (by decide), reqField_kept (by decide)⟩
    · cases h
  · cases (decodeRequest_clear hop).symm.trans h
    exact ⟨trivial, hop', reqField_cleared (by decide)⟩
  · cases (decodeRequest_writeRaw hop).symm.trans h
    exact ⟨trivial, hop', reqField_cleared (by decide), reqField_kept (by decide), reqField_cleared (by decide),
      reqField_kept (by decide)⟩
  · cases (decodeRequest_displayDigit hop).symm.trans h
    exact ⟨trivial, hop', reqField_cleared (by decide), reqField_kept (by decide), reqField_kept (by decide),
      reqField_cleared (by decide), by rw [reqField_kept (by decide)]⟩
  · cases (decodeRequest_displayNumber hop).symm.trans h
    exact ⟨trivial, hop', reqField_cleared (by decide), by rw [reqField_kept (by decide)], reqField_kept (by decide)⟩
  · cases (decodeRequest_displayFloat hop).symm.trans h
    exact ⟨trivial, hop', reqField_cleared (by decide), reqField_kept (by decide), reqField_kept (by decide)⟩
  · cases (decodeRequest_displayHex hop).symm.trans h
    exact ⟨trivial, hop', reqField_cleared (by decide), reqField_kept (by decide)⟩
  · cases (decodeRequest_testPattern hop).symm.trans h
    exact ⟨trivial, hop', reqField_cleared (by decide)⟩
  · cases (decodeRequest_illegalOp hop hillegal).symm.trans h

/-! ### Wire frames -/

/-- The decoder reads a frame's own bits as the operation of that frame (R61, R62). -/
@[simp] theorem decode_bitsOfFrame (f : Frame) : decode (.frame (bitsOfFrame f)) = .ok (instrOfFrame f) := by
  simp [decode]

/-- The frame of a named command is read as the operation that sends it (R92). -/
theorem decode_cmdCode (n : SysCommand) :
    decode (.frame (bitsOfFrame (.cmd (Config.cmdCode n)))) = .ok (instrOfCommand n) := by
  simp [instrOfFrame]

/-- A command frame whose code names nothing is read as the generic command (log 12). -/
theorem decode_cmd_of_unnamed {c : BitVec 8} (hc : ¬ IsNamedCode c) :
    decode (.frame (bitsOfFrame (.cmd c))) = .ok (.sendCommand c) := by
  simp [instrOfFrame, (commandOf_eq_none_iff c).2 hc]

/-- The decoder reads an encoded framing operation as that operation (R90 to R92). -/
theorem decode_of_encode_eq_frame {i : Instr} {bits : List Bool} (hi : i.WellFormed) (h : encode i = .frame bits) :
    decode (.frame bits) = .ok i := by
  rw [← h]
  cases i with
  | init | initCfg | clear | writeRaw | displayDigit | displayNumber | displayFloat | displayHex | testPattern =>
    cases h
  | sendCommand c => exact decode_cmd_of_unnamed hi
  | writeMemory a d => exact decode_bitsOfFrame (.write a d)
  | sendCommandSysDis => exact decode_cmdCode .sysDis
  | sendCommandSysEn => exact decode_cmdCode .sysEn
  | sendCommandLcdOff => exact decode_cmdCode .lcdOff
  | sendCommandLcdOn => exact decode_cmdCode .lcdOn
  | sendCommandOsc => exact decode_cmdCode .osc
  | sendCommandBiasCom0 => exact decode_cmdCode (.biasCom 0)
  | sendCommandBiasCom1 => exact decode_cmdCode (.biasCom 1)
  | sendCommandBiasCom2 => exact decode_cmdCode (.biasCom 2)
  | sendCommandBiasCom3 => exact decode_cmdCode (.biasCom 3)
  | sendCommandBiasCom4 => exact decode_cmdCode (.biasCom 4)
  | sendCommandBiasCom5 => exact decode_cmdCode (.biasCom 5)

end Sys2Proof

namespace Sys2Proof.Machine

/-! ### The step -/

/-- A step that takes an operation's word is that operation, run from the accepting state, with `BUSY` lowered after it
(R70, R172). -/
theorem step_of_decode {s : State} {p : Presented} {rest : List Presented} {i : Instr} (hr : s.requests = p :: rest)
    (hb : s.busy = false) (hd : decode p.word = .ok i) : step s = release (exec i (accept p rest s)) := by
  simp [step, hr, hb, hd]

/-! ### The obligations -/

/-- Settles O2: an encoded request has the layout of its operation, which the decoder reads back, and an encoded frame is
read back bit by bit. -/
theorem decodeEncodeAgree : Obligations.DecodeEncodeAgree := by
  intro i hi
  cases hw : encode i with
  | request w => exact decodeRequest_of_layout hi (encode_eq_request_iff.1 hw)
  | frame bits => exact decode_of_encode_eq_frame hi hw

/-- Settles O3: the mask keeps `OP` and the named fields of that operation, and the decoder reads nothing else. -/
theorem reservedRequestBitsIgnored : Obligations.ReservedRequestBitsIgnored := fun _ =>
  (decodeRequest_careMask rfl).symm

/-- Settles O4: a word that decodes has the layout of its operation once its reserved bits are cleared, and that is what the
encoder writes. -/
theorem requestWordsHaveOneMeaning : Obligations.RequestWordsHaveOneMeaning := by
  intro w i h
  obtain ⟨hi, hlayout⟩ := layout_of_decodeRequest rfl h
  exact ⟨hi, encode_eq_request_iff.2 hlayout⟩

/-- Settles O1, by running the decoder on each written word. -/
theorem writtenWordsDecode : Obligations.WrittenWordsDecode := by
  unfold Obligations.WrittenWordsDecode
  decide

/-- Settles O6: the accepting state is the state `accept` makes, `release` lowers BUSY, and there is no fault to raise. -/
theorem stepRunsTheDecodedOperation : Obligations.StepRunsTheDecodedOperation := by
  intro s p rest i hr hb hd accepted
  have hstep : step s = release (exec i accepted) := step_of_decode hr hb hd
  refine ⟨fun t ht => ?_, fun r hrefused => ?_, fun r => nomatch r⟩
  · rw [hstep, ht]
    rfl
  · rw [hstep, hrefused]
    rfl

end Sys2Proof.Machine
end

section
/-! PROOFS. The family 40_bit_serializer: the pin events of bit cells, fields and frames, the delay after every edge, and
the wire at rest while READY. First the lemmas on fields, traces and the lines, then the obligations. -/

namespace Sys2Proof

/-- The bits of a field as a list over their numbers, `n-1` down to 0 (R82). -/
theorem bitsMsbFirst_eq_map (v n : Nat) : bitsMsbFirst v n = (List.range n).reverse.map v.testBit := by
  induction n with
  | zero => rfl
  | succ n ih => simp [bitsMsbFirst, List.range_succ, ih]

end Sys2Proof

namespace Sys2Proof.Machine

/-! ### Fields -/

/-- `send_bits` is the bit cells of bits `n-1` down to 0 (R82). -/
theorem sendBits_eq_flatMap (v n : Nat) :
    sendBits v n = (List.range n).reverse.flatMap fun i => sendBit (v.testBit i) := by
  induction n with
  | zero => rfl
  | succ n ih => simp [sendBits, List.range_succ, ih]

/-- A field of `n` bits is `6n` events (R81, R82). -/
theorem length_sendBits (v n : Nat) : (sendBits v n).length = 6 * n := by
  induction n with
  | zero => rfl
  | succ n ih =>
    rw [sendBits, List.length_append, ih]
    simp only [sendBit, List.length_cons, List.length_nil]
    omega

/-- An open frame gains exactly the bits of the field, also when it has none (R54). -/
theorem rxBits_observeAll_sendBits {b : Bus} {bits : List Bool} (h : b.rxBits = some bits) (v n : Nat) :
    (b.observeAll (sendBits v n)).rxBits = some (bits ++ bitsMsbFirst v n) := by
  cases n with
  | zero => simp [sendBits, bitsMsbFirst, h]
  | succ n => simp [observeAll_sendBits, h]

/-! ### Delayed edges -/

/-- After a part in which every edge is delayed, so that none ends it, the rest of the trace decides. -/
theorem edgesDelayed_append {l : List PinEvent} (hl : edgesDelayed l = true) (m : List PinEvent) :
    edgesDelayed (l ++ m) = edgesDelayed m := by
  induction l using edgesDelayed.induct with
  | case1 => rfl
  | case2 line v n rest ih =>
    obtain ⟨hn, hrest⟩ : (n == Config.tUs) = true ∧ edgesDelayed rest = true := by
      simpa only [edgesDelayed, Bool.and_eq_true] using hl
    simp only [List.cons_append, edgesDelayed, hn, ih hrest, Bool.true_and]
  | case3 line v rest hrest => simp [edgesDelayed] at hl
  | case4 line v rest ih => exact ih hl
  | case5 n rest ih => exact ih hl
  | case6 n rest ih => exact ih hl

/-- A trace put together from parts in which every edge is delayed. -/
theorem edgesDelayed_flatMap {α : Type} {f : α → List PinEvent} (h : ∀ x, edgesDelayed (f x) = true) (l : List α) :
    edgesDelayed (l.flatMap f) = true := by
  induction l with
  | nil => rfl
  | cons x rest ih =>
    rw [List.flatMap_cons, edgesDelayed_append (h x), ih]

theorem edgesDelayed_sendBit (v : Bool) : edgesDelayed (sendBit v) = true := rfl

@[simp] theorem edgesDelayed_sendBits (v n : Nat) : edgesDelayed (sendBits v n) = true := by
  rw [sendBits_eq_flatMap]
  exact edgesDelayed_flatMap (fun i => edgesDelayed_sendBit (v.testBit i)) _

@[simp] theorem edgesDelayed_frameBegin : edgesDelayed frameBegin = true := by decide

@[simp] theorem edgesDelayed_frameEnd : edgesDelayed frameEnd = true := by decide

/-- Every edge of a frame is delayed: it is a preamble, fields and a postamble (R85(e)). -/
theorem edgesDelayed_frameEvents (f : Frame) : edgesDelayed (frameEvents f) = true := by
  cases f <;> simp [frameEvents, sendCommandEvents, writeMemoryEvents, edgesDelayed_append]

/-- Every edge of a block is delayed; only a frame has edges. -/
theorem edgesDelayed_blockEvents (x : TraceBlock) : edgesDelayed x.events = true := by
  cases x with
  | cfg l => rfl
  | wait ms => rfl
  | frame f => exact edgesDelayed_frameEvents f

/-! ### The lines -/

/-- An edge writes the level of its line and no other; the delay after it writes none (R80). -/
theorem lvl_observeAll_edge (b : Bus) (l : Line) (v : Bool) :
    (b.observeAll [.set l v, delayQuantum]).lvl = b.lvl.set l v := rfl

/-- Once all lines are outputs, every pin event keeps them so: a `Cfg` can only make a line an output (R21). -/
theorem allOutputs_observe {b : Bus} (e : PinEvent) (h : b.AllOutputs) : (b.observe e).AllOutputs := by
  unfold Bus.AllOutputs at *
  cases e with
  | cfg l v =>
    show b.dir.set l .output = _
    rw [h]
    cases l <;> rfl
  | set l v => exact (dir_observeAll (events := [.set l v]) (by simp) b).trans h
  | delayUs n => exact h
  | delayMs n => exact h

/-- Once all lines are outputs, they stay outputs (R21). -/
theorem allOutputs_observeAll {b : Bus} (events : List PinEvent) (h : b.AllOutputs) :
    (b.observeAll events).AllOutputs := by
  induction events generalizing b with
  | nil => exact h
  | cons e rest ih => exact ih (allOutputs_observe e h)

/-- The power-up sequence ends with a frame, so from any wire it leaves the wire at rest (R35, R85(a)). -/
theorem idle_observeAll_powerUp (b : Bus) (k : BiasCom) : (b.observeAll (powerUp k)).Idle := by
  rw [powerUp, observeAll_cons, initCommands, observeAll_append]
  exact observeAll_frameEvents_idle _ (.cmd (Config.cmdCode .lcdOn))

/-- An initialization that ends in READY leaves the wire at rest and all lines outputs, whatever they were (R35). -/
theorem initialise_atRest {k : BiasCom} {s t : State} (h : initialise k s = .next t) (ht : t.st = .ready) :
    t.bus.Idle ∧ t.bus.AllOutputs := by
  obtain ⟨hst, -, -, -, ⟨-, hok⟩ | ⟨hfailed, -⟩⟩ := initialise_next h
  · obtain ⟨-, answers, -⟩ := initialise_drove h
    rw [initialise_of_allAnswersTrue k hst (answers hok)] at h
    cases h
    rw [markReady_bus, performAll_bus, performAll_bus]
    exact ⟨idle_observeAll_powerUp _ k, allOutputs_observeAll _ rfl⟩
  · simp [hfailed] at ht

/-- Only an initialization enters READY (R22). -/
theorem initialise_of_enters_ready {i : Instr} {s t : State} (h : exec i s = .next t) (hs : s.st ≠ .ready)
    (ht : t.st = .ready) : ∃ k, initialise k s = .next t := by
  cases i with
  | init => exact ⟨_, h⟩
  | initCfg k =>
    by_cases hk : k.toNat < 6
    · exact ⟨_, exec_initCfg_of_legal hk s ▸ h⟩
    · rw [exec_initCfg_of_illegal hk] at h
      cases h
      exact absurd ht hs
  | _ => exact absurd ((driverFrame_of_exec h (by simp) (by simp)).st ▸ ht) hs

/-- Every operation keeps the wire at rest and the lines outputs while READY: started in READY it performs whole blocks, and
otherwise only an initialization ends in READY (R85(a), R35). -/
theorem exec_readyMeansAtRest {i : Instr} {s t : State} (hs : ReadyMeansAtRest s) (h : exec i s = .next t) :
    ReadyMeansAtRest t := by
  intro ht
  by_cases hready : s.st = .ready
  · obtain ⟨hidle, houtputs⟩ := hs hready
    obtain ⟨blocks, hdrove⟩ := exec_next h
    rw [hdrove.bus]
    exact ⟨idle_observeAll_blocks blocks hidle, allOutputs_observeAll _ houtputs⟩
  · obtain ⟨k, hinit⟩ := initialise_of_enters_ready h hready ht
    exact initialise_atRest hinit ht

/-! ### The obligations -/

/-- Settles O50, by the cases of a step: idle and an illegal request touch neither `ST` nor the bus, and every operation
keeps the property. -/
theorem stepKeepsReadyLinesAtRest : Obligations.StepKeepsReadyLinesAtRest := by
  intro s t hs h
  rcases step_next h with ⟨-, rfl⟩ | ⟨p, rest, -, -, ⟨e, -, rfl⟩ | ⟨i, u, -, he, rfl⟩⟩
  · exact hs
  · exact hs
  · have accepted : ReadyMeansAtRest (accept p rest s) := hs
    have done : ReadyMeansAtRest u := exec_readyMeansAtRest accepted he
    exact done

/-- Settles O12: the field is its bit cells in descending order, and the receiver samples one bit per cell. -/
theorem sendBitsIsMostSignificantFirst : Obligations.SendBitsIsMostSignificantFirst := by
  intro v n
  refine ⟨sendBits_eq_flatMap v n, length_sendBits v n, fun b => ⟨fun hn => ?_, fun bits hbits => ?_⟩⟩
  · obtain ⟨m, rfl⟩ := Nat.exists_eq_add_one.2 hn
    rw [observeAll_sendBits]
  · rw [rxBits_observeAll_sendBits hbits, bitsMsbFirst_eq_map]

/-- Settles O47: the trace is put together from blocks, and every edge of a block is delayed. -/
theorem everyEdgeIsDelayed : Obligations.EveryEdgeIsDelayed := by
  rintro s ⟨blocks, hblocks⟩
  rw [hblocks]
  exact edgesDelayed_flatMap edgesDelayed_blockEvents blocks

/-- Settles O11: the event lists are the definitions'; a bit cell leaves WR at 1 and DATA at its bit, the preamble and the
postamble are one edge of CS. -/
theorem bitCellAndFrameEdges : Obligations.BitCellAndFrameEdges := by
  refine ⟨fun _ => rfl, rfl, rfl, fun b s => ⟨?_, performAll_pinTrace _ s⟩, fun s => ⟨?_, performAll_pinTrace _ s⟩,
    fun s => ⟨?_, performAll_pinTrace _ s⟩⟩
  · rw [performAll_bus, observeAll_sendBit]
  · exact lvl_observeAll_edge s.bus .cs false
  · exact lvl_observeAll_edge s.bus .cs true

end Sys2Proof.Machine
end

section
/-! PROOFS. The family 41_protocol: the framing operations, initialization's acceptance, CLEAR and WRITE_RAW, and which
frames host operations send. First the lemmas on single operations and their frames, then the obligations. -/

namespace Sys2Proof.Machine

/-! ### One frame on a wire at rest -/

/-- A frame sent on a wire at rest: the whole next state (R54, R90, R91). -/
theorem performAll_frameEvents {s : State} (h : s.bus.Idle) (f : Frame) :
    performAll (frameEvents f) s =
      { s with
        pinTrace := s.pinTrace ++ frameEvents f
        bus :=
          { s.bus with
            lvl := ⟨true, true, lastBit f⟩
            frames := s.bus.frames ++ [f]
            mem := memAfter [f] s.bus.mem
            controller := controllerAfter [f] s.bus.controller } } := by
  have hbus := observeAll_frames h [f]
  rw [List.flatMap_singleton] at hbus
  rw [performAll, hbus]
  rfl

/-- `send_command` on a wire at rest writes the trace, the levels, `FRAMES` and the receiver flags (R90). -/
theorem sendCommand_eq {s : State} (h : s.bus.Idle) (c : BitVec 8) :
    sendCommand c s =
      { s with
        pinTrace := s.pinTrace ++ sendCommandEvents c
        bus :=
          { s.bus with
            lvl := ⟨true, true, c.getLsbD 0⟩
            frames := s.bus.frames ++ [.cmd c]
            controller := s.bus.controller.receive c } } :=
  performAll_frameEvents h (.cmd c)

/-- `write_memory` on a wire at rest writes the trace, the levels, `FRAMES` and `MEM` (R91). -/
theorem writeMemory_eq {s : State} (h : s.bus.Idle) (a : BitVec 6) (d : Nibble) :
    writeMemory a d s =
      { s with
        pinTrace := s.pinTrace ++ writeMemoryEvents a d
        bus :=
          { s.bus with
            lvl := ⟨true, true, d.getLsbD 0⟩
            frames := s.bus.frames ++ [.write a d]
            mem := s.bus.mem.write a.toNat d } } :=
  performAll_frameEvents h (.write a d)

/-- A named command's operation is `send_command` of its code (R92). -/
theorem exec_instrOfCommand (n : SysCommand) (s : State) :
    exec (instrOfCommand n) s = .next (sendCommand (Config.cmdCode n) s) := by
  cases n with
  | biasCom k => fin_cases k <;> rfl
  | _ => rfl

/-- A framing operation is encoded as one frame and puts exactly that frame on the wire, in every state (R90 to R92). -/
theorem framing_encode_exec {i : Instr} (hi : ¬ IsHostOperation i) (s : State) :
    ∃ f, encode i = .frame (bitsOfFrame f) ∧ exec i s = .next (performAll (frameEvents f) s) := by
  cases i with
  | init | initCfg | clear | writeRaw | displayDigit | displayNumber | displayFloat | displayHex | testPattern =>
    exact absurd trivial hi
  | sendCommand c => exact ⟨.cmd c, rfl, rfl⟩
  | writeMemory a d => exact ⟨.write a d, rfl, rfl⟩
  | _ => exact ⟨.cmd _, rfl, rfl⟩

/-! ### Acceptance -/

/-- INIT is the initialization with the default setting (R94). -/
theorem exec_init (s : State) : exec .init s = initialise Config.defaultBiasCom s := rfl

/-- While READY an initialization has no meaning (R98). -/
theorem initialise_of_ready (k : BiasCom) {s : State} (h : s.st = .ready) :
    initialise k s = .refused .alreadyInitialised := if_pos h

/-- Outside READY an initialization answers a next state, whatever the platform's answers are (R22, R161). -/
theorem exists_initialise_eq_next (k : BiasCom) {s : State} (h : s.st ≠ .ready) : ∃ t, initialise k s = .next t := by
  unfold initialise
  rw [if_neg h]
  split
  · dsimp only
    split
    · exact ⟨_, rfl⟩
    · exact ⟨_, rfl⟩
  · exact ⟨_, rfl⟩

/-- A display operation outside READY is refused (R97). -/
theorem whenReady_of_not_ready (op : State → State) {s : State} (h : s.st ≠ .ready) :
    whenReady op s = .refused .notReady := if_neg h

/-- Each of the seven display operations is refused outside READY; DISPLAY_FLOAT asks `ST` before the domain (R97). -/
theorem exec_display_of_not_ready {i : Instr} (hi : IsDisplayOperation i) {s : State} (h : s.st ≠ .ready) :
    exec i s = .refused .notReady := by
  cases i with
  | displayFloat value decimals =>
    exact (if_neg fun hc => h hc.1).trans (whenReady_of_not_ready (displayFloat value decimals) h)
  | clear | writeRaw | displayDigit | displayNumber | displayHex | testPattern => exact whenReady_of_not_ready _ h
  | _ => exact absurd hi id

/-! ### CLEAR -/

/-- The write frames of 0 to a list of addresses, in order (R95). -/
def zeroWrites (addrs : List Nat) : List Frame := addrs.map fun a => .write (BitVec.ofNat 6 a) 0

theorem onlyWrites_zeroWrites (addrs : List Nat) : OnlyWrites (zeroWrites addrs) := by
  intro f hf c
  obtain ⟨a, -, rfl⟩ := List.mem_map.1 hf
  exact Frame.noConfusion

/-- An address of a cell fits the frame's 6 bits. -/
theorem toNat_ofNat_of_lt_memCells {a : Nat} (h : a < Config.memCells) : (BitVec.ofNat 6 a).toNat = a := by
  unfold Config.memCells at h
  rw [BitVec.toNat_ofNat]
  omega

/-- Zero writes go to the listed addresses only. -/
theorem mem_of_write_mem_zeroWrites {addrs : List Nat} (h : ∀ a ∈ addrs, a < Config.memCells) {x : BitVec 6}
    {d : Nibble} (hx : Frame.write x d ∈ zeroWrites addrs) : x.toNat ∈ addrs := by
  obtain ⟨a, ha, hax⟩ := List.mem_map.1 hx
  obtain ⟨rfl, -⟩ := Frame.write.inj hax
  rwa [toNat_ofNat_of_lt_memCells (h a ha)]

theorem inCells_zeroWrites {addrs : List Nat} (h : ∀ a ∈ addrs, a < Config.memCells) :
    InCells (zeroWrites addrs) := by
  rintro f hf a d rfl
  exact h _ (mem_of_write_mem_zeroWrites h hf)

/-- What zero writes leave last in a cell: 0 if it is listed, nothing otherwise. -/
theorem lastWrite_zeroWrites {addrs : List Nat} (h : ∀ a ∈ addrs, a < Config.memCells) (x : Nat) :
    lastWrite x (zeroWrites addrs) = if x ∈ addrs then some 0 else none := by
  induction addrs with
  | nil => rfl
  | cons a rest ih =>
    obtain ⟨ha, hrest⟩ := List.forall_mem_cons.1 h
    have cons : lastWrite x (zeroWrites (a :: rest)) =
        (lastWrite x (zeroWrites rest)).or (if x = (BitVec.ofNat 6 a).toNat then some 0 else none) := rfl
    rw [cons, ih hrest, toNat_ofNat_of_lt_memCells ha]
    by_cases hx : x ∈ rest <;> simp [hx]

/-- A memory-write frame is 82 pin events (R91). -/
theorem length_writeMemoryEvents (a : BitVec 6) (d : Nibble) : (writeMemoryEvents a d).length = 82 := by
  simp [writeMemoryEvents, length_sendBits, frameBegin, frameEnd]

theorem length_events_zeroWrites (addrs : List Nat) :
    ((zeroWrites addrs).flatMap frameEvents).length = 82 * addrs.length := by
  induction addrs with
  | nil => rfl
  | cons a rest ih =>
    have cons : (zeroWrites (a :: rest)).flatMap frameEvents =
        writeMemoryEvents (BitVec.ofNat 6 a) 0 ++ (zeroWrites rest).flatMap frameEvents := rfl
    rw [cons, List.length_append, ih, length_writeMemoryEvents, List.length_cons]
    omega

/-- Zero writes, if there are any, leave DATA low. -/
theorem dataAfter_zeroWrites {addrs : List Nat} (h : addrs ≠ []) (v : Bool) :
    dataAfter (zeroWrites addrs) v = false := by
  rw [← List.dropLast_append_getLast h]
  simp [zeroWrites, dataAfter]

/-- Completing writes `RESULT` only, so what was sent and left alone stays so. -/
theorem WroteFrames.complete {sent : List Frame} {s t : State} (h : WroteFrames sent s t) :
    WroteFrames sent s (complete t) := ⟨h.frames, h.trace, h.idle, h.dir, h.controller⟩

theorem DriverFrame.complete {s t : State} (h : DriverFrame s t) : DriverFrame s (complete t) :=
  ⟨h.st, h.cfg, h.busy, h.requests, h.readyIn, h.cfgokIn⟩

/-- CLEAR while READY sends the zero writes to all 32 cells and completes (R95). -/
theorem exec_clear_of_ready {s : State} (h : s.st = .ready) :
    ∃ t, exec .clear s = .next (complete t) ∧ Sent (zeroWrites (List.range 32)) s t ∧ t.temps = s.temps :=
  ⟨clearCells (List.range Config.memCells) s, whenReady_ready _ h, sent_clearCells _ s, clearCells_temps _ s⟩

/-! ### WRITE_RAW -/

/-- WRITE_RAW while READY is one `write_memory` and completes (R96). -/
theorem exec_writeRaw_of_ready {addr : BitVec 5} {nibble : Nibble} {s : State} (h : s.st = .ready) :
    exec (.writeRaw addr nibble) s = .next (complete (writeMemory (addr.setWidth 6) nibble s)) := whenReady_ready _ h

/-! ### The frames of host operations -/

@[simp] theorem framesOf_map_frame (sent : List Frame) : framesOf (sent.map .frame) = sent := by
  simp [framesOf, List.filterMap_map]

/-- The test pattern sends the pictures of its digits (R129). -/
theorem framesOf_testBlocks (digits : List Nat) :
    framesOf (testBlocks digits) = digits.flatMap fun d =>
      pictureWrites 0 (List.replicate Config.maxDigits (.digit (BitVec.ofNat 4 d), false)) := by
  induction digits with
  | nil => rfl
  | cons d rest ih =>
    rw [List.flatMap_cons, ← ih]
    simp [testBlocks, framesOf, List.filterMap_map]

/-- A display operation sends write frames only (R99). -/
theorem onlyWrites_framesOf_opBlocks {i : Instr} (hi : IsDisplayOperation i) (ready cfgok : LineMap Bool) :
    OnlyWrites (framesOf (opBlocks i ready cfgok)) := by
  have frames : ∀ {sent : List Frame}, OnlyWrites sent → OnlyWrites (framesOf (sent.map .frame)) := fun h => by
    rwa [framesOf_map_frame]
  cases i with
  | clear => exact frames (onlyWrites_zeroWrites _)
  | writeRaw a d =>
    intro f hf c
    obtain rfl := List.mem_singleton.1 hf
    exact Frame.noConfusion
  | displayDigit p v dp =>
    have picture := onlyWrites_pictureWrites p.toNat [(digitOfPort v, dp)]
    rw [pictureWrites, pictureWrites, List.append_nil] at picture
    exact frames picture
  | displayNumber | displayFloat | displayHex => exact frames (onlyWrites_pictureWrites 0 _)
  | testPattern =>
    intro f hf
    rw [opBlocks, framesOf_testBlocks] at hf
    obtain ⟨d, -, hd⟩ := List.mem_flatMap.1 hf
    exact onlyWrites_pictureWrites 0 _ f hd
  | _ => exact absurd hi id

/-- `t` has over `s` the frames of a host operation: none, the four commands of an initialization, or write frames. -/
def AddsHostFrames (s t : State) : Prop :=
  ∃ sent, t.bus.frames = s.bus.frames ++ sent ∧ (sent = [] ∨ (∃ k, sent = initFrames k) ∨ OnlyWrites sent)

/-- A display operation adds write frames only, on a wire at rest (R99). -/
theorem display_addsHostFrames {i : Instr} {s t : State} (h : exec i s = .next t) (hrest : s.st = .ready → s.bus.Idle)
    (hi : IsDisplayOperation i) : AddsHostFrames s t := by
  obtain ⟨hready, hdrove, -, -⟩ := display_next hi h
  obtain ⟨hcs, hwr, -⟩ := hrest hready
  refine ⟨_, ?_, .inr (.inr (onlyWrites_framesOf_opBlocks hi s.readyIn s.cfgokIn))⟩
  rw [hdrove.bus]
  exact (frames_observeAll_blocks _ hcs hwr).1

/-- Configuring lines adds no frame, whatever the wire is. -/
theorem frames_observeAll_cfgBlocks (lines : List Line) (b : Bus) :
    (b.observeAll ((lines.map TraceBlock.cfg).flatMap TraceBlock.events)).frames = b.frames := by
  induction lines generalizing b with
  | nil => rfl
  | cons l rest ih => exact ih (b.observe (.cfg l true))

/-- The blocks of an initialization: all three lines and the power-up sequence, or lines only (R93, R142). -/
theorem initBlocks_cases (k : BiasCom) (ready cfgok : LineMap Bool) :
    initBlocks k ready cfgok = Line.inOrder.map .cfg ++ powerUpBlocks k ∨
      ∃ lines : List Line, initBlocks k ready cfgok = lines.map .cfg := by
  unfold initBlocks
  split
  · split
    · split
      · split
        · exact .inl rfl
        · exact .inr ⟨[.cs, .wr], rfl⟩
      · exact .inr ⟨[.cs], rfl⟩
    · exact .inr ⟨[], rfl⟩
  · exact .inr ⟨[], rfl⟩

theorem framesOf_powerUpBlocks (k : BiasCom) : framesOf (powerUpBlocks k) = initFrames k := rfl

/-- An initialization adds its four commands or, when a line fails, no frame, on any wire: configuring CS and WR raises
them before the first frame (R93, R143). -/
theorem initialise_addsHostFrames {k : BiasCom} {s t : State} (h : initialise k s = .next t) : AddsHostFrames s t := by
  have hbus := (initialise_drove h).1.bus
  rcases initBlocks_cases k s.readyIn s.cfgokIn with hall | ⟨lines, hlines⟩
  · have configured := frames_observeAll_cfgBlocks Line.inOrder s.bus
    have powered := (frames_observeAll_blocks (powerUpBlocks k)
      (b := s.bus.observeAll ((Line.inOrder.map TraceBlock.cfg).flatMap TraceBlock.events)) rfl rfl).1
    refine ⟨initFrames k, ?_, .inr (.inl ⟨k, rfl⟩)⟩
    rw [hbus, hall, List.flatMap_append, observeAll_append, powered, configured, framesOf_powerUpBlocks]
  · refine ⟨[], ?_, .inl rfl⟩
    rw [hbus, hlines, frames_observeAll_cfgBlocks, List.append_nil]

/-- Every host operation is an initialization, an illegal INIT_CFG, which sends nothing, or a display operation. -/
theorem host_addsHostFrames {i : Instr} (hi : IsHostOperation i) {s t : State} (h : exec i s = .next t)
    (hrest : s.st = .ready → s.bus.Idle) : AddsHostFrames s t := by
  cases i with
  | init => exact initialise_addsHostFrames h
  | initCfg k =>
    by_cases hk : k.toNat < 6
    · exact initialise_addsHostFrames ((exec_initCfg_of_legal hk s).symm.trans h)
    · cases (exec_initCfg_of_illegal hk s).symm.trans h
      exact ⟨[], (List.append_nil _).symm, .inl rfl⟩
  | clear | writeRaw | displayDigit | displayNumber | displayFloat | displayHex | testPattern =>
    exact display_addsHostFrames h hrest trivial
  | _ => exact absurd hi id

/-! ### The obligations -/

/-- Settles O13: the frame of a command on a wire at rest. -/
theorem sendCommandSendsItsFrame : Obligations.SendCommandSendsItsFrame := fun c _ hidle =>
  congrArg Host.Outcome.next (sendCommand_eq hidle c)

/-- Settles O15: the frame of a write on a wire at rest; then read after write. -/
theorem writeMemoryWritesItsCell : Obligations.WriteMemoryWritesItsCell := by
  intro a d s hidle
  refine ⟨s.bus.mem.write a.toNat d, congrArg Host.Outcome.next (writeMemory_eq hidle a d), fun ha hm => ?_,
    fun ha x hx => Memory.read_write_other d hx ha s.bus.mem⟩
  exact ⟨Memory.write_ne_poisoned d hm ha, Memory.read_write_same d hm ha⟩

/-- Settles O17: the frame of its code on a wire at rest, and the receiver records the command. -/
theorem namedCommandsRecordTheirFlag : Obligations.NamedCommandsRecordTheirFlag := by
  intro n s f hidle hf
  rw [exec_instrOfCommand, sendCommand_eq hidle, hf, Controller.receive_cmdCode]
  rfl

/-- Settles O18: the operation puts its own frame on the lines, and a frame leaves any wire at rest and configures no
line. -/
theorem framingOperationsAlwaysComplete : Obligations.FramingOperationsAlwaysComplete := by
  intro i s hi
  obtain ⟨f, hencode, hexec⟩ := framing_encode_exec hi s
  exact ⟨f, _, hencode, hexec, rfl, observeAll_frameEvents_idle s.bus f,
    dir_observeAll (fun l v => cfg_notMem_frameEvents l v f) s.bus, ⟨rfl, rfl, rfl, rfl, rfl, rfl⟩, rfl, rfl⟩

/-- Settles O23: CLEAR sends the 32 zero writes, which leave 0 in each cell. -/
theorem clearZeroesEveryCell : Obligations.ClearZeroesEveryCell := by
  refine ⟨fun s hready hidle => ?_, fun s h => exec_display_of_not_ready (i := .clear) trivial h⟩
  have cells : ∀ a ∈ List.range 32, a < Config.memCells := fun a => List.mem_range.1
  obtain ⟨t, hexec, sent, htemps⟩ := exec_clear_of_ready hready
  have hmem := sent.mem hidle
  refine ⟨complete t, hexec, (sent.wroteFrames hidle (onlyWrites_zeroWrites _)).complete, sent.driverFrame.complete, ?_,
    rfl, htemps, ?_, fun hm a ha => ?_, fun a ha => ?_⟩
  · rw [complete_pinTrace, sent.pinTrace, List.length_append, length_events_zeroWrites, List.length_range]
  · rw [complete_bus, sent.bus, observeAll_frames hidle]
    exact dataAfter_zeroWrites (by simp) _
  · rw [complete_bus, hmem, read_memAfter (inCells_zeroWrites cells) hm, lastWrite_zeroWrites cells,
      if_pos (List.mem_range.2 ha), Option.some_or]
  · rw [complete_bus, hmem]
    refine read_memAfter_other (inCells_zeroWrites cells) ?_ s.bus.mem
    rw [lastWrite_zeroWrites cells, if_neg (by simpa using ha)]

/-- Settles O24: one write frame to the operand's address, which has a cell; then read after write. -/
theorem writeRawWritesItsCell : Obligations.WriteRawWritesItsCell := by
  intro addr nibble s
  refine ⟨fun hready hidle => ?_, exec_display_of_not_ready (i := .writeRaw addr nibble) trivial⟩
  have haddr : (addr.setWidth 6).toNat = addr.toNat := BitVec.toNat_setWidth_of_le (by decide)
  have cell : addr.toNat < Config.memCells := addr.isLt
  refine ⟨s.bus.mem.write addr.toNat nibble, ?_, fun hm => Memory.read_write_same nibble hm cell,
    fun x hx => Memory.read_write_other nibble hx cell s.bus.mem⟩
  rw [exec_writeRaw_of_ready hready, writeMemory_eq hidle, haddr]
  rfl

/-- Settles O45: a host operation's frames are writes or the four commands of an initialization, whose codes are distinct
from the two that switch off. -/
theorem hostOperationsNeverSwitchOff : Obligations.HostOperationsNeverSwitchOff := by
  intro i s t hi h hrest
  obtain ⟨sent, hsent, hkind⟩ := host_addsHostFrames hi h hrest
  refine ⟨sent, hsent, ?_⟩
  rcases hkind with rfl | ⟨k, rfl⟩ | hwrites
  · simp
  · simp [initFrames, cmdCode_injective.eq_iff]
  · exact ⟨fun hm => hwrites _ hm _ rfl, fun hm => hwrites _ hm _ rfl⟩

/-- Settles O20: the default setting is legal, and 3 bits hold it. -/
theorem initUsesTheDefaultSetting : Obligations.InitUsesTheDefaultSetting := by
  intro s
  have hlt := Config.defaultBiasCom.isLt
  have hval : (BitVec.ofNat 3 Config.defaultBiasCom.val).toNat = Config.defaultBiasCom.val := by
    rw [BitVec.toNat_ofNat]
    omega
  rw [exec_init, exec_initCfg_of_legal (hval.trans_lt hlt)]
  exact congrArg (initialise · s) (Fin.ext hval.symm)

/-- Settles O22: INIT and a legal INIT_CFG are initializations, and display operations ask `ST` first. -/
theorem acceptanceByLifeCycle : Obligations.AcceptanceByLifeCycle := by
  refine ⟨fun s h => initialise_of_ready _ h, fun k s hk h => ?_, fun s h => exists_initialise_eq_next _ h,
    fun k s hk h => ?_, fun i s hi h => exec_display_of_not_ready hi h⟩
  · rw [exec_initCfg_of_legal hk, initialise_of_ready _ h]
  · rw [exec_initCfg_of_legal hk]
    exact exists_initialise_eq_next _ h

end Sys2Proof.Machine
end

section
/-! PROOFS. The family 42_segment_digit: the segment table, the decimal point, the cells of a position, and DISPLAY_DIGIT
within and beyond the display. First the lemmas, then the obligations. -/

namespace Sys2Proof.Machine

/-! ### The segment table -/

/-- A port value is looked up in the 16 digits followed by BLANK and MINUS; past them it shows BLANK (R69, R110). -/
theorem encodeSegment_digitOfPort (v : BitVec 8) :
    encodeSegment (digitOfPort v) = ((segTable.toList ++ [patBlank, patMinus])[v.toNat]?).getD patBlank := by
  have hlen : segTable.toList.length = 16 := rfl
  unfold digitOfPort
  split
  · rename_i hdigit
    have hn : (v.setWidth 4).toNat = v.toNat := by
      rw [BitVec.toNat_setWidth]
      omega
    have inside : v.toNat < segTable.toList.length := hdigit.trans_eq hlen.symm
    rw [List.getElem?_append_left inside, List.getElem?_eq_getElem inside]
    simp [encodeSegment, hn]
  · rename_i hno
    rw [List.getElem?_append_right (by omega), hlen]
    split
    · rename_i hminus
      rw [hminus]
      rfl
    · rename_i hblank
      rcases (by omega : v.toNat = 16 ∨ 18 ≤ v.toNat) with h | h
      · rw [h]
        rfl
      · rw [List.getElem?_eq_none (by simp; omega)]
        rfl

/-! ### The decimal point -/

/-- Merging the decimal point sets bit 7 if it is asked for, and no other bit (R111). -/
theorem getLsbD_withDp (pat : Pattern) (dp : Bool) (i : Nat) :
    (withDp pat dp).getLsbD i = (pat.getLsbD i || (dp && decide (i = 7))) := by
  have point : (0x80 : Pattern) = BitVec.twoPow 8 7 := rfl
  cases dp with
  | false => simp [withDp]
  | true => simp [withDp, point, BitVec.getLsbD_twoPow, eq_comm]

/-- The low nibble does not see the decimal point (R111). -/
theorem lowNibble_withDp (pat : Pattern) (dp : Bool) : lowNibble (withDp pat dp) = lowNibble pat := by
  rw [lowNibble_eq, lowNibble_eq]
  apply BitVec.eq_of_getLsbD_eq
  intro i hi
  have below : i ≠ 7 := by omega
  simp [getLsbD_withDp, below]

/-- Bit 3 of the high nibble is bit 7 of the pattern (R113). -/
theorem getLsbD_highNibble_three (pat : Pattern) : (highNibble pat).getLsbD 3 = pat.getLsbD 7 := by
  rw [highNibble_eq, BitVec.getLsbD_extractLsb']
  rfl

/-- The two nibbles of a pattern recombine to it (R41). -/
theorem nibbles_append (pat : Pattern) :
    (pat.extractLsb' 4 4 : Nibble) ++ (pat.extractLsb' 0 4 : Nibble) = pat :=
  (BitVec.extractLsb'_append_extractLsb'_eq_extractLsb' rfl).trans BitVec.extractLsb'_eq_self

/-! ### The cells of a position -/

/-- The high-nibble cell of a position (R112). -/
theorem cellOfPosition_add_one (p : Nat) : cellOfPosition p + 1 = BitVec.ofNat 6 (2 * p + 1) :=
  (BitVec.ofNat_add (2 * p) 1).symm

/-- The frames of a pattern write no cell but the two of its position. -/
theorem toNat_of_write_mem_patternWrites {p : Nat} (hp : p < 6) {pat : Pattern} {a : BitVec 6} {d : Nibble}
    (h : Frame.write a d ∈ patternWrites p pat) : a.toNat = 2 * p ∨ a.toNat = 2 * p + 1 := by
  have cell : ∀ x, x < 12 → (BitVec.ofNat 6 x).toNat = x := fun x hx =>
    toNat_ofNat_of_lt_memCells (hx.trans (by decide))
  simp only [patternWrites, List.mem_cons, Frame.write.injEq, List.not_mem_nil, or_false] at h
  rcases h with ⟨rfl, -⟩ | ⟨rfl, -⟩
  · exact .inl (cell _ (by omega))
  · exact .inr (cell _ (by omega))

/-- A pattern's frames are a picture of one element. -/
theorem pictureWrites_singleton {p : Nat} (hp : p < 6) (item : Item) :
    pictureWrites p [item] = patternWrites p (itemPattern item) := by
  simp [pictureWrites, hp]

/-! ### The digit renderer -/

/-- Within the display `render_digit` leaves the pattern and the low-nibble cell in PAT and ADDR (R113). -/
theorem renderDigit_temps_of_lt {p : Nat} (hp : p < 6) (v : DigitValue) (dp : Bool) (s : State) :
    (renderDigit p v dp s).temps = { s.temps with pat := itemPattern (v, dp), addr := cellOfPosition p } := by
  unfold renderDigit
  rw [if_neg (Nat.not_le.2 hp : ¬ Config.maxDigits ≤ p)]
  simp [setPatAddr_eq, itemPattern]

/-- Beyond the display `render_digit` does nothing (R113). -/
theorem renderDigit_of_beyond {p : Nat} (hp : 6 ≤ p) (v : DigitValue) (dp : Bool) (s : State) :
    renderDigit p v dp s = s := if_pos hp

/-- `render_digit` sends a picture of one element (R113). -/
theorem sent_renderDigit_picture (p : Nat) (v : DigitValue) (dp : Bool) (s : State) :
    Sent (pictureWrites p [(v, dp)]) s (renderDigit p v dp s) := sent_renderFrom p [(v, dp)] s

/-- DISPLAY_DIGIT while READY is `render_digit` and completes (R113). -/
theorem exec_displayDigit_of_ready (position digitValue : BitVec 8) (dp : Bool) {s : State} (h : s.st = .ready) :
    exec (.displayDigit position digitValue dp) s =
      .next (complete (renderDigit position.toNat (digitOfPort digitValue) dp s)) := whenReady_ready _ h

/-! ### The obligations -/

/-- Settles O28: `render_digit` sends the two frames of the pattern; they leave its nibbles in the two cells of the position
and write no other. -/
theorem displayDigitShowsItsPattern : Obligations.DisplayDigitShowsItsPattern := by
  intro position digitValue dp s hready hidle hp pat
  let item : Item := (digitOfPort digitValue, dp)
  have frames : pictureWrites position.toNat [item] = patternWrites position.toNat pat := pictureWrites_singleton hp item
  have sent := sent_renderDigit_picture position.toNat (digitOfPort digitValue) dp s
  have cells := inCells_pictureWrites position.toNat [item]
  have hmem := sent.mem hidle
  obtain ⟨low, high⟩ := lastWrite_pictureWrites (q := 0) (items := [item]) hp rfl
  refine ⟨_, exec_displayDigit_of_ready position digitValue dp hready,
    frames ▸ (sent.wroteFrames hidle (onlyWrites_pictureWrites _ _)).complete, sent.driverFrame.complete, rfl,
    renderDigit_temps_of_lt hp _ dp s, fun hm => ⟨pat.extractLsb' 4 4, pat.extractLsb' 0 4, ?_, ?_, nibbles_append pat⟩,
    fun x hxlow hxhigh => ?_⟩
  · rw [complete_bus, hmem, read_memAfter cells hm]
    exact congrArg (Option.or · _) low
  · rw [complete_bus, hmem, read_memAfter cells hm]
    exact congrArg (Option.or · _) high
  · rw [complete_bus, hmem]
    refine read_memAfter_other cells (lastWrite_eq_none fun a d hwrite hxa => ?_) s.bus.mem
    rw [frames] at hwrite
    rcases toNat_of_write_mem_patternWrites hp hwrite with ha | ha
    · exact hxlow (hxa.trans ha)
    · exact hxhigh (hxa.trans ha)

/-- Settles O25: the written table is the 16 digits followed by BLANK and MINUS. -/
theorem segmentTableOnEveryPortValue : Obligations.SegmentTableOnEveryPortValue := encodeSegment_digitOfPort

/-- Settles O26, bit by bit: only bit 7 depends on the flag, and it is bit 3 of the high nibble. -/
theorem decimalPointIsBitSeven : Obligations.DecimalPointIsBitSeven := by
  intro pat dp
  have seven : (withDp pat dp).getLsbD 7 = (pat.getLsbD 7 || dp) :=
    (getLsbD_withDp pat dp 7).trans (by simp)
  refine ⟨rfl, seven, fun i hi => ?_, lowNibble_withDp pat dp, (getLsbD_highNibble_three _).trans seven⟩
  simp [getLsbD_withDp, hi.ne]

/-- Settles O27: both cell numbers fit the frame's 6 bits. -/
theorem mapperStaysInTheDisplay : Obligations.MapperStaysInTheDisplay := by
  intro p hp
  have low : (cellOfPosition p).toNat = 2 * p := toNat_ofNat_of_lt_memCells (by unfold Config.memCells; omega)
  have high : (cellOfPosition p + 1).toNat = 2 * p + 1 := by
    rw [cellOfPosition_add_one]
    exact toNat_ofNat_of_lt_memCells (by unfold Config.memCells; omega)
  omega

/-- Settles O29: beyond the display there is nothing to render, and the operation completes. -/
theorem displayDigitBeyondTheDisplayIsNoOp : Obligations.DisplayDigitBeyondTheDisplayIsNoOp := by
  intro position digitValue dp s hready hp
  rw [exec_displayDigit_of_ready position digitValue dp hready, renderDigit_of_beyond hp]
  rfl

end Sys2Proof.Machine
end

section
/-! PROOFS. The family 43_formatters: which picture each formatter shows and what it leaves in the temporaries, the test
pattern, and the domain and the scaling of the binary32 operand. First the lemmas, then the obligations. -/

namespace Sys2Proof.Machine

/-! ### Acceptance -/

section
variable {s : State}

/-- DISPLAY_NUMBER while READY runs and completes (R97, R121). -/
theorem exec_displayNumber_of_ready (value : BitVec 32) (lz : Bool) (h : s.st = .ready) :
    exec (.displayNumber value lz) s = .next (complete (displayNumber value lz s)) := whenReady_ready _ h

/-- DISPLAY_HEX while READY renders its six nibbles and completes (R97, R128). -/
theorem exec_displayHex_of_ready (value : BitVec 24) (h : s.st = .ready) :
    exec (.displayHex value) s = .next (complete (renderFrom 0 (hexItems value) s)) := whenReady_ready _ h

/-- TEST_PATTERN while READY runs its ten steps and completes (R97, R129). -/
theorem exec_testPattern_of_ready (h : s.st = .ready) :
    exec .testPattern s = .next (complete (testSteps (List.range 10) s)) := whenReady_ready _ h

/-- DISPLAY_FLOAT while READY, on a datum of its domain, runs and completes (R97, R126). -/
theorem exec_displayFloat_of_inDomain {value : BitVec 32} (decimals : BitVec 8) (h : s.st = .ready)
    (hm : (value.setWidth 31 : BitVec 31).toNat ≤ 0x4A03126E) :
    exec (.displayFloat value decimals) s = .next (complete (displayFloat value decimals s)) := by
  have hdom : floatInDomain (floatMagnitude value) = true := (floatInDomain_iff _).2 hm
  exact (if_neg (by simp [hdom])).trans (whenReady_ready (displayFloat value decimals) h)

/-- DISPLAY_FLOAT while READY, on any other datum, has no meaning (R126). -/
theorem exec_displayFloat_of_outside {value : BitVec 32} (decimals : BitVec 8) (h : s.st = .ready)
    (hm : 0x4A03126E < (value.setWidth 31 : BitVec 31).toNat) :
    exec (.displayFloat value decimals) s = .refused .floatOutsideDomain := by
  have hdom : floatInDomain (floatMagnitude value) = false := by
    rw [← Bool.not_eq_true, floatInDomain_iff]
    exact Nat.not_le.2 hm
  exact if_pos ⟨h, hdom⟩

/-- Every display operation answers a next state while READY, DISPLAY_FLOAT on its domain (R97, R146). -/
theorem exists_exec_display_eq_next {i : Instr} (hi : IsDisplayOperation i) (h : s.st = .ready)
    (hdom : ∀ value decimals, i = .displayFloat value decimals →
      (value.setWidth 31 : BitVec 31).toNat ≤ 0x4A03126E) : ∃ t, exec i s = .next t := by
  cases i with
  | displayFloat value decimals => exact ⟨_, exec_displayFloat_of_inDomain decimals h (hdom value decimals rfl)⟩
  | clear | writeRaw | displayDigit | displayNumber | displayHex | testPattern => exact ⟨_, whenReady_ready _ h⟩
  | _ => exact absurd hi id

end

/-! ### Directions -/

/-- A display operation configures no line: its blocks are frames and waits. -/
theorem cfg_notMem_opBlocks {i : Instr} (hi : IsDisplayOperation i) (ready cfgok : LineMap Bool) (l : Line) :
    TraceBlock.cfg l ∉ opBlocks i ready cfgok := by
  cases i with
  | clear | writeRaw | displayDigit | displayNumber | displayFloat | displayHex => simp [opBlocks]
  | testPattern => simp [opBlocks, testBlocks]
  | _ => exact absurd hi id

/-- Blocks that configure no line are, for the lines and the receiver, their frames alone. -/
theorem observeAll_blocks_of_no_cfg {blocks : List TraceBlock} (h : ∀ l, TraceBlock.cfg l ∉ blocks) (b : Bus) :
    b.observeAll (blocks.flatMap TraceBlock.events) = b.observeAll ((framesOf blocks).flatMap frameEvents) := by
  induction blocks generalizing b with
  | nil => rfl
  | cons x rest ih =>
    have hrest := ih fun l hl => h l (List.mem_cons_of_mem _ hl)
    rw [List.flatMap_cons, observeAll_append, hrest]
    cases x with
    | cfg l => exact absurd List.mem_cons_self (h l)
    | wait ms => rfl
    | frame f => exact (observeAll_append b (frameEvents f) _).symm

/-! ### Pictures -/

/-- The nibbles of a sequence: of each element the low nibble of its pattern, then the high one (R41). -/
def pictureNibbles (items : List Item) : List Nibble :=
  items.flatMap fun item => [(itemPattern item).extractLsb' 0 4, (itemPattern item).extractLsb' 4 4]

/-- A picture from a position on writes the nibbles of the elements within the display to the cells in order (R131). -/
theorem pictureWrites_eq_map_zipIdx (p : Nat) (items : List Item) :
    pictureWrites p items =
      ((pictureNibbles (items.take (6 - p))).zipIdx (2 * p)).map fun c => .write (BitVec.ofNat 6 c.2) c.1 := by
  induction items generalizing p with
  | nil => simp [pictureWrites, pictureNibbles]
  | cons item rest ih =>
    rw [pictureWrites, ih (p + 1)]
    by_cases hp : p < 6
    · have within : 6 - p = (6 - (p + 1)) + 1 := by omega
      rw [if_pos hp, within]
      simp [pictureNibbles, patternWrites, Nat.mul_add]
    · have beyond : 6 - p = 0 ∧ 6 - (p + 1) = 0 := by omega
      simp [hp, beyond, pictureNibbles]

/-- Every element gives two nibbles. -/
theorem length_pictureNibbles (items : List Item) : (pictureNibbles items).length = 2 * items.length := by
  simp [pictureNibbles, Nat.mul_comm]

/-- The two nibbles of the element at a place stand at twice that place (R41). -/
theorem getElem?_pictureNibbles (items : List Item) (p : Nat) :
    (pictureNibbles items)[2 * p]? = items[p]?.map (fun item => (itemPattern item).extractLsb' 0 4) ∧
      (pictureNibbles items)[2 * p + 1]? = items[p]?.map (fun item => (itemPattern item).extractLsb' 4 4) := by
  induction items generalizing p with
  | nil => simp [pictureNibbles]
  | cons item rest ih =>
    cases p with
    | zero => simp [pictureNibbles]
    | succ p => exact ih p

/-- After a picture of at least six elements cells 0 to 11 hold the nibbles of the first six (R131). -/
theorem Shows.read_eq {items : List Item} {s t : State} (h : Shows items s t) (hlen : 6 ≤ items.length)
    (hm : s.bus.mem ≠ .poisoned) {a : Nat} (ha : a < 12) :
    t.bus.mem.read a = (pictureNibbles (items.take 6))[a]? := by
  obtain ⟨p, hpa⟩ := Nat.even_or_odd' a
  have hp : p < 6 := by omega
  have item : items[p]? = some items[p] := List.getElem?_eq_getElem (by omega)
  obtain ⟨low, high⟩ := getElem?_pictureNibbles (items.take 6) p
  rw [List.getElem?_take_of_lt hp, item] at low high
  rcases hpa with rfl | rfl
  · exact (h.low hm p _ hp item).trans low.symm
  · exact (h.high hm p _ hp item).trans high.symm

/-- A filled sequence has at least six elements (R120). -/
theorem six_le_length_fillBlank (items : List Item) : 6 ≤ (fillBlank items).length := by
  simp only [fillBlank, Config.maxDigits, List.length_append, List.length_replicate]
  omega

/-- The nibbles of DISPLAY_HEX, cut out of the value (R128). -/
theorem hexItems_eq (value : BitVec 24) :
    hexItems value =
      [(.digit (value.extractLsb' 20 4), false), (.digit (value.extractLsb' 16 4), false),
        (.digit (value.extractLsb' 12 4), false), (.digit (value.extractLsb' 8 4), false),
        (.digit (value.extractLsb' 4 4), false), (.digit (value.extractLsb' 0 4), false)] := rfl

/-! ### The temporaries -/

/-- What a decimal formatter leaves in the temporaries: the sign, the magnitude `m` with `n` digits extracted, DEC, and
the number of elements of `items` (R121, R124). -/
structure LeavesDigits (neg : Bool) (m n : Nat) (dec : BitVec 2) (items : List Item) (before after : Temps) : Prop where
  neg : after.neg = neg
  mag : after.mag = BitVec.ofNat 32 (m / 10 ^ n)
  count : after.n = BitVec.ofNat 3 n
  pos : after.pos = BitVec.ofNat 4 items.length
  dec : after.dec = dec
  dig : ∀ (i : Nat) (hi : i < 6),
    after.dig[i] = if i < n then BitVec.ofNat 4 (m / 10 ^ i % 10) else before.dig[i]

/-- The temporaries of the extracted digits; DEC is as before (R121). -/
theorem leavesDigits_formatTemps (neg : Bool) (m n : Nat) (items : List Item) (t : Temps) :
    LeavesDigits neg m n t.dec items t
      (formatTemps neg m ((List.range n).map fun i => BitVec.ofNat 4 (m / 10 ^ i % 10)) items t) := by
  refine ⟨rfl, by simp [formatTemps], by simp [formatTemps], rfl, rfl, fun i hi => ?_⟩
  refine (storeDigits_get _ 0 t.dig i hi).trans ?_
  by_cases h : i < n <;> simp [h]

section
variable {neg : Bool} {m n : Nat} {dec : BitVec 2} {items : List Item} {before after : Temps}

/-- Rendering changes PAT and ADDR only, so what the extraction left stays (R113). -/
theorem LeavesDigits.render {s : State} (h : LeavesDigits neg m n dec items before s.temps) (p : Nat)
    (shown : List Item) :
    LeavesDigits neg m n dec items before (renderFrom p shown s).temps := by
  obtain ⟨pat, addr, htemps⟩ := renderFrom_temps p shown s
  rw [htemps]
  exact ⟨h.neg, h.mag, h.count, h.pos, h.dec, h.dig⟩

/-- DEC is written on its own (R124 step 1). -/
theorem LeavesDigits.setDec (h : LeavesDigits neg m n dec items before after) (d : BitVec 2) :
    LeavesDigits neg m n d items before { after with dec := d } :=
  ⟨h.neg, h.mag, h.count, h.pos, rfl, h.dig⟩

end

/-- DISPLAY_NUMBER leaves the digits of the exact magnitude; DEC is as before (R121). -/
theorem displayNumber_leavesDigits (value : BitVec 32) (lz : Bool) (s : State) :
    LeavesDigits (decide (value.toInt < 0)) value.toInt.natAbs (numberCount value) s.temps.dec
      (filled (numberShown value lz)) s.temps (displayNumber value lz s).temps := by
  rw [displayNumber, numberDigits_eq, numberItems_eq]
  exact LeavesDigits.render (leavesDigits_formatTemps _ _ _ _ s.temps) 0 _

/-- DISPLAY_FLOAT leaves the digits of the kept magnitude, and DEC (R124). -/
theorem displayFloat_leavesDigits (value : BitVec 32) (decimals : BitVec 8) (s : State) :
    LeavesDigits (floatNegative value) (floatKept value decimals) (floatCount value decimals)
      (BitVec.ofNat 2 (clampDecimals decimals)) (filled (floatShown value decimals)) s.temps
      (displayFloat value decimals s).temps := by
  rw [displayFloat, floatDigits_eq, floatItems_eq]
  exact LeavesDigits.render ((leavesDigits_formatTemps _ _ _ _ s.temps).setDec _) 0 _

/-- The sign shown is the sign bit of a value that is not -0.0 (R124 step 2). -/
theorem floatNegative_eq (value : BitVec 32) :
    floatNegative value = decide (value.msb = true ∧ (value.setWidth 31 : BitVec 31) ≠ 0#31) := by
  rw [Bool.eq_iff_iff]
  simp [floatNegative, floatMagnitude]

/-! ### What each formatter shows -/

section
variable {s : State} (hready : s.st = .ready) (hidle : s.bus.Idle)
include hready hidle

/-- DISPLAY_NUMBER shows its picture (R121). -/
theorem displayNumber_shows (value : BitVec 32) (lz : Bool) :
    ∃ t, exec (.displayNumber value lz) s = .next t ∧ Shows (filled (numberShown value lz)) s t ∧
      t.temps = (displayNumber value lz s).temps := by
  rw [← numberItems_eq]
  exact ⟨_, exec_displayNumber_of_ready value lz hready, shows_of_sent (sent_displayNumber value lz s) hidle, rfl⟩

/-- DISPLAY_FLOAT on its domain shows its picture (R124). -/
theorem displayFloat_shows {value : BitVec 32} (decimals : BitVec 8)
    (hm : (value.setWidth 31 : BitVec 31).toNat ≤ 0x4A03126E) :
    ∃ t, exec (.displayFloat value decimals) s = .next t ∧ Shows (filled (floatShown value decimals)) s t ∧
      t.temps = (displayFloat value decimals s).temps := by
  rw [← floatItems_eq]
  exact ⟨_, exec_displayFloat_of_inDomain decimals hready hm, shows_of_sent (sent_displayFloat value decimals s) hidle,
    rfl⟩

/-- DISPLAY_HEX shows its picture (R128). -/
theorem displayHex_shows (value : BitVec 24) :
    ∃ t, exec (.displayHex value) s = .next t ∧ Shows (hexItems value) s t ∧
      ∃ pat addr, t.temps = { s.temps with pat := pat, addr := addr } :=
  ⟨_, exec_displayHex_of_ready value hready, shows_of_sent (sent_renderFrom 0 (hexItems value) s) hidle,
    renderFrom_temps 0 (hexItems value) s⟩

end

/-- Each decimal, float or hex request has a picture of at least six elements, by its operands alone (R131). -/
theorem exists_formatter_picture {i : Instr}
    (hi : (∃ value lz, i = .displayNumber value lz) ∨ (∃ value, i = .displayHex value) ∨
      ∃ value decimals, i = .displayFloat value decimals ∧ (value.setWidth 31 : BitVec 31).toNat ≤ 0x4A03126E) :
    ∃ items : List Item, 6 ≤ items.length ∧
      ∀ s : State, s.st = .ready → s.bus.Idle → ∃ t, exec i s = .next t ∧ Shows items s t := by
  rcases hi with ⟨value, lz, rfl⟩ | ⟨value, rfl⟩ | ⟨value, decimals, rfl, hm⟩
  · refine ⟨_, six_le_length_fillBlank (numberShown value lz), fun s hready hidle => ?_⟩
    obtain ⟨t, hexec, hshows, -⟩ := displayNumber_shows hready hidle value lz
    exact ⟨t, hexec, hshows⟩
  · refine ⟨hexItems value, by simp [hexItems], fun s hready hidle => ?_⟩
    obtain ⟨t, hexec, hshows, -⟩ := displayHex_shows hready hidle value
    exact ⟨t, hexec, hshows⟩
  · refine ⟨_, six_le_length_fillBlank (floatShown value decimals), fun s hready hidle => ?_⟩
    obtain ⟨t, hexec, hshows, -⟩ := displayFloat_shows hready hidle decimals hm
    exact ⟨t, hexec, hshows⟩

/-! ### The test pattern -/

/-- The frames of one step: the digit at all six positions (R129). -/
def stepFrames (d : Nat) : List Frame :=
  (List.range 6).flatMap fun p => patternWrites p (encodeSegment (.digit (BitVec.ofNat 4 d)))

/-- A step shows a picture of six equal elements. -/
theorem stepFrames_eq (d : Nat) :
    stepFrames d = pictureWrites 0 (List.replicate Config.maxDigits (.digit (BitVec.ofNat 4 d), false)) := rfl

theorem framesOf_testBlocks_eq (digits : List Nat) : framesOf (testBlocks digits) = digits.flatMap stepFrames :=
  framesOf_testBlocks digits

/-- The pin events of the test pattern: the frames of each digit, then the delay (R129). -/
theorem testBlocks_events (digits : List Nat) :
    (testBlocks digits).flatMap TraceBlock.events =
      digits.flatMap fun d => (stepFrames d).flatMap frameEvents ++ [.delayMs Config.testStepMs] := by
  simp only [testBlocks, ← stepFrames_eq, List.flatMap_assoc, List.flatMap_append, flatMap_frame_events]
  rfl

/-- Every frame of the test pattern writes one of the cells 0 to 11. -/
theorem testFrames_addr {digits : List Nat} {a : BitVec 6} {d : Nibble}
    (h : Frame.write a d ∈ digits.flatMap stepFrames) : a.toNat < 12 := by
  obtain ⟨n, -, hn⟩ := List.mem_flatMap.1 h
  rw [stepFrames_eq] at hn
  exact (pictureWrites_addr hn).2

theorem inCells_testFrames (digits : List Nat) : InCells (digits.flatMap stepFrames) := by
  rintro f hf a d rfl
  exact (testFrames_addr hf).trans (by decide)

theorem onlyWrites_testFrames (digits : List Nat) : OnlyWrites (digits.flatMap stepFrames) := by
  intro f hf
  obtain ⟨d, -, hd⟩ := List.mem_flatMap.1 hf
  rw [stepFrames_eq] at hd
  exact onlyWrites_pictureWrites 0 _ f hd

/-- What the receiver makes of the test pattern on a wire at rest: the delays aside, the frames of the steps. -/
theorem testSteps_bus (digits : List Nat) {s : State} (h : s.bus.Idle) :
    (testSteps digits s).bus =
      { s.bus with
        lvl := ⟨true, true, dataAfter (digits.flatMap stepFrames) s.bus.lvl.data⟩
        frames := s.bus.frames ++ digits.flatMap stepFrames
        mem := memAfter (digits.flatMap stepFrames) s.bus.mem } := by
  rw [(drove_testSteps digits s).bus, observeAll_blocks_of_no_cfg (by simp [testBlocks]), framesOf_testBlocks_eq,
    observeAll_frames h, controllerAfter_writes (onlyWrites_testFrames digits)]

/-- The last digit stays in the cells of every position. -/
theorem lastWrite_testFrames (digits : List Nat) (d : Nat) {p : Nat} (hp : p < 6) :
    lastWrite (2 * p) ((digits ++ [d]).flatMap stepFrames) =
        some ((encodeSegment (.digit (BitVec.ofNat 4 d))).extractLsb' 0 4) ∧
      lastWrite (2 * p + 1) ((digits ++ [d]).flatMap stepFrames) =
        some ((encodeSegment (.digit (BitVec.ofNat 4 d))).extractLsb' 4 4) := by
  have item : (List.replicate Config.maxDigits (DigitValue.digit (BitVec.ofNat 4 d), false))[p]? =
      some (.digit (BitVec.ofNat 4 d), false) := List.getElem?_replicate_of_lt hp
  obtain ⟨low, high⟩ := lastWrite_pictureWrites (p := 0) (by omega) item
  rw [Nat.zero_add, ← stepFrames_eq] at low high
  rw [List.flatMap_append, List.flatMap_singleton, lastWrite_append, lastWrite_append, low, high]
  exact ⟨rfl, rfl⟩

/-! ### Scaling -/

/-- How many low bits rounding to binary32 drops: the significand keeps 24. -/
def roundingShift (p : Nat) : Nat := Nat.log2 p - 23

/-- A number with `k` bits more than a significand loses at most `k` of them. -/
theorem roundingShift_le {p k : Nat} (h : p < 2 ^ 24 * 2 ^ k) : roundingShift p ≤ k := by
  rcases Nat.eq_zero_or_pos p with rfl | hp
  · simp [roundingShift]
  · rw [← pow_add, ← Nat.log2_lt hp.ne'] at h
    unfold roundingShift
    omega

/-- A number whose dropped bits are 0 is a binary32 value and rounds to itself. -/
theorem roundBinary32_of_dvd {p : Nat} (h : 2 ^ roundingShift p ∣ p) : roundBinary32 p = p := by
  unfold roundBinary32
  split
  · rfl
  · have dropped : p % 2 ^ (Nat.log2 p - 23) = 0 := Nat.mod_eq_zero_of_dvd h
    simp only [dropped]
    rw [if_neg (by simp)]
    exact Nat.div_mul_cancel h

/-- Rounding goes to the multiple of the last kept bit below, or to the next one. -/
theorem roundBinary32_cases (p : Nat) :
    roundBinary32 p = p / 2 ^ roundingShift p * 2 ^ roundingShift p ∨
      roundBinary32 p = (p / 2 ^ roundingShift p + 1) * 2 ^ roundingShift p := by
  unfold roundBinary32
  split
  · rename_i hp
    have noShift : roundingShift p = 0 := Nat.le_zero.1 (roundingShift_le (k := 0) (by simpa using hp))
    simp [noShift]
  · dsimp only
    split
    · exact .inr rfl
    · exact .inl rfl

/-- The whole part of a rounded number is that of the number or one more, while its last kept bit is in the fraction. -/
theorem roundBinary32_div {p k : Nat} (h : p < 2 ^ 24 * 2 ^ k) :
    roundBinary32 p / 2 ^ k = p / 2 ^ k ∨ roundBinary32 p / 2 ^ k = p / 2 ^ k + 1 := by
  obtain ⟨j, hj⟩ := Nat.exists_eq_add_of_le (roundingShift_le h)
  have whole : ∀ q, q * 2 ^ roundingShift p / 2 ^ k = q / 2 ^ j := fun q => by
    rw [hj, pow_add, Nat.mul_comm q]
    exact Nat.mul_div_mul_left _ _ (by positivity)
  have hp : p / 2 ^ k = p / 2 ^ roundingShift p / 2 ^ j := by rw [hj, pow_add, Nat.div_div_eq_div_mul]
  rw [hp]
  rcases roundBinary32_cases p with hr | hr
  · exact .inl (by rw [hr, whole])
  · rw [hr, whole, Nat.succ_div]
    split
    · exact .inr rfl
    · exact .inl rfl

/-- A product with at most 24 significant bits is a binary32 value, so `RN32` does nothing to it (R125). -/
theorem scaleF32_eq_scaleExact {m : BitVec 31} {q e : Nat} (hq : q < 2 ^ 24)
    (h : floatTimes2p149 m * 1000 = q * 2 ^ e) : scaleF32 m = scaleExact m := by
  have kept : 2 ^ roundingShift (q * 2 ^ e) ∣ q * 2 ^ e :=
    (pow_dvd_pow 2 (roundingShift_le (Nat.mul_lt_mul_of_pos_right hq (by positivity)))).trans (Nat.dvd_mul_left _ q)
  rw [scaleF32, scaleExact, h, roundBinary32_of_dvd kept]

/-- The exact scaling never falls as the magnitude grows (R125). -/
theorem scaleExact_mono {m m' : BitVec 31} (h : m.toNat ≤ m'.toNat) : scaleExact m ≤ scaleExact m' :=
  Nat.div_le_div_right (Nat.mul_le_mul_right 1000 (floatTimes2p149_mono h))

/-! ### Decimals and pinned values -/

/-- Below 0 the clamp gives 0 (R124 step 1). -/
theorem clampDecimals_of_neg {d : BitVec 8} (h : d.toInt < 0) : clampDecimals d = clampDecimals 0 := by
  have zero : clampDecimals 0 = 0 := by decide
  rw [zero, clampDecimals]
  omega

/-- Above 3 the clamp gives 3 (R124 step 1). -/
theorem clampDecimals_of_gt {d : BitVec 8} (h : 3 < d.toInt) : clampDecimals d = clampDecimals 3 := by
  have three : clampDecimals 3 = 3 := by decide
  rw [three, clampDecimals]
  omega

/-- DISPLAY_FLOAT uses `decimals` only clamped (R124 step 1). -/
theorem displayFloat_congr (value : BitVec 32) {d d' : BitVec 8} (h : clampDecimals d = clampDecimals d') :
    displayFloat value d = displayFloat value d' := by
  funext s
  simp only [displayFloat, floatItems, floatDigits, floatScaled, h]

theorem exec_displayFloat_congr (value : BitVec 32) {d d' : BitVec 8} (h : clampDecimals d = clampDecimals d')
    (s : State) :
    exec (.displayFloat value d) s = exec (.displayFloat value d') s := by
  simp only [exec, execDisplayFloat, displayFloat_congr value h]

/-- The sequence depends on the scaling function only through its value on the datum (R125). -/
theorem floatItems_of_scale {scale : BitVec 31 → BitVec 32} {value : BitVec 32} {x : BitVec 32}
    (h : scale (floatMagnitude value) = x) (drop : Bool) (extra : Nat) (decimals : BitVec 8) :
    floatItems scale drop extra value decimals = floatItems (fun _ => x) drop extra value decimals := by
  simp only [floatItems, floatDigits, floatScaled, h]

/-! ### The obligations -/

/-- Settles O30: the sequence rendered is the one of the spec's arithmetic, and the temporaries are those of the
extracted digits. -/
theorem displayNumberShowsTheValue : Obligations.DisplayNumberShowsTheValue := by
  intro value lz s
  refine ⟨fun hready hidle => ?_, exec_display_of_not_ready (i := .displayNumber value lz) trivial⟩
  obtain ⟨t, hexec, hshows, htemps⟩ := displayNumber_shows hready hidle value lz
  have left := displayNumber_leavesDigits value lz s
  rw [← htemps] at left
  exact ⟨t, hexec, hshows, left.neg, left.mag, left.count, left.pos, left.dec, left.dig⟩

/-- Settles O32: the sequence rendered is the one of the spec's arithmetic on the kept magnitude, and the temporaries
are those of the extracted digits. -/
theorem displayFloatShowsTheValue : Obligations.DisplayFloatShowsTheValue := by
  intro value decimals s hready hidle hm
  obtain ⟨t, hexec, hshows, htemps⟩ := displayFloat_shows hready hidle decimals hm
  have left := displayFloat_leavesDigits value decimals s
  rw [← htemps, floatNegative_eq] at left
  exact ⟨t, hexec, hshows, left.neg, left.mag, left.count, left.pos, left.dec, left.dig⟩

/-- Settles O33: the magnitude bits decide whether the datum is in the domain. -/
theorem floatOutsideDomainIsRefused : Obligations.FloatOutsideDomainIsRefused := by
  intro value decimals s hready
  refine ⟨⟨fun h => ?_, exec_displayFloat_of_outside decimals hready⟩, fun hm => ?_⟩
  · by_contra hm
    rw [exec_displayFloat_of_inDomain decimals hready (Nat.not_lt.1 hm)] at h
    cases h
  · exact ⟨_, exec_displayFloat_of_inDomain decimals hready hm, rfl⟩

/-- Settles O36: rounding keeps a binary32 value, moves any other to a neighbouring multiple of its last kept bit, and
the value grows with the magnitude bits. -/
theorem scaleCandidatesAgree : Obligations.ScaleCandidatesAgree :=
  ⟨fun _ _ _ => scaleF32_eq_scaleExact, fun _ => roundBinary32_div, fun _ _ => scaleExact_mono⟩

/-- Settles O37: the sequence rendered is the six slices of the value. -/
theorem displayHexShowsSixNibbles : Obligations.DisplayHexShowsSixNibbles := by
  intro value s
  refine ⟨fun hready hidle => ?_, exec_display_of_not_ready (i := .displayHex value) trivial⟩
  have shown := displayHex_shows hready hidle value
  rwa [hexItems_eq] at shown

/-- Settles O38: the blocks of the ten steps; the frames of the last one stay in the cells. -/
theorem testPatternCyclesTheDigits : Obligations.TestPatternCyclesTheDigits := by
  intro s hready hidle
  obtain ⟨hdriver, -, htemps⟩ := testSteps_frame (List.range 10) s
  have hbus := testSteps_bus (List.range 10) hidle
  have hmem : (testSteps (List.range 10) s).bus.mem = memAfter ((List.range 10).flatMap stepFrames) s.bus.mem := by
    rw [hbus]
  have cells := inCells_testFrames (List.range 10)
  refine ⟨_, exec_testPattern_of_ready hready, ?_, (drove_testSteps _ s).trace.trans (congrArg _ (testBlocks_events _)),
    ?_, ?_, ?_, hdriver.complete, rfl, htemps, fun hm p hp => ?_, fun a ha => ?_⟩
  · rw [complete_bus, hbus]
    rfl
  · rw [complete_bus, hbus]
    exact ⟨rfl, rfl, hidle.2.2⟩
  · rw [complete_bus, hbus]
  · rw [complete_bus, hbus]
  · obtain ⟨low, high⟩ := lastWrite_testFrames (List.range 9) 9 hp
    rw [complete_bus, hmem, read_memAfter cells hm, read_memAfter cells hm, List.range_succ, low, high]
    exact ⟨rfl, rfl⟩
  · rw [complete_bus, hmem]
    refine read_memAfter_other cells (lastWrite_eq_none fun x d hx hax => ?_) s.bus.mem
    exact absurd (testFrames_addr hx) (Nat.not_lt.2 (hax ▸ ha))

/-- Settles O39: the nibbles are those of the first six elements of the picture. -/
theorem formattersWriteTwelveCellsInOrder : Obligations.FormattersWriteTwelveCellsInOrder := by
  intro i hi
  obtain ⟨items, hlen, hpicture⟩ := exists_formatter_picture hi
  refine ⟨pictureNibbles (items.take 6), ?_, fun s hready hidle => ?_⟩
  · rw [length_pictureNibbles, List.length_take_of_le hlen]
  · obtain ⟨t, hexec, hshows⟩ := hpicture s hready hidle
    refine ⟨t, hexec, ?_, fun hm a ha => hshows.read_eq hlen hm ha, hshows.rest⟩
    rw [hshows.wrote.frames, pictureWrites_eq_map_zipIdx]

/-- Settles O40: while READY the operation completes, and its blocks configure no line. -/
theorem displayOperationsAlwaysComplete : Obligations.DisplayOperationsAlwaysComplete := by
  intro i s hi hready hdom
  obtain ⟨t, hexec⟩ := exists_exec_display_eq_next hi hready hdom
  obtain ⟨-, hdrove, hok, hdriver⟩ := display_next hi hexec
  refine ⟨t, hexec, hok, hdriver, ?_⟩
  rw [hdrove.bus, observeAll_blocks_of_no_cfg (cfg_notMem_opBlocks hi _ _), dir_observeAll_frames]

/-- Settles O31: the sequence is computed from the exact magnitude 2147483648. -/
theorem mostNegativeNumberIsExact : Obligations.MostNegativeNumberIsExact := by
  intro s hready hidle
  obtain ⟨t, hexec, hshows, -⟩ := displayNumber_shows hready hidle 0x80000000 false
  have picture : numberItems 0x80000000 false =
      [(.minus, false), (.digit 4, false), (.digit 8, false), (.digit 3, false), (.digit 6, false), (.digit 4, false),
        (.digit 8, false)] := by decide
  refine ⟨t, hexec, ?_⟩
  rw [hshows.wrote.frames, ← numberItems_eq, picture]
  rfl

/-- Settles O34: values that clamp to the same number of decimals give the same operation. -/
theorem floatDecimalsAreClamped : Obligations.FloatDecimalsAreClamped := fun value _ s =>
  ⟨fun h => exec_displayFloat_congr value (clampDecimals_of_neg h) s,
    fun h => exec_displayFloat_congr value (clampDecimals_of_gt h) s⟩

/-- Settles O35: the candidates are computed on the two data, and the sequences from the value of the scaling there. -/
theorem pinnedFloatExamples : Obligations.PinnedFloatExamples := by
  refine ⟨by decide, by decide, by decide, by decide, fun scale => ⟨fun h => ⟨?_, ?_⟩, ?_⟩⟩
  · rw [floatItems_of_scale (value := 0x40490FD0) h]
    decide
  · rw [floatItems_of_scale (value := 0x40490FD0) h]
    decide
  · rintro (h | h)
    · rw [floatItems_of_scale (value := 0xC2C587AE) h]
      decide
    · rw [floatItems_of_scale (value := 0xC2C587AE) h]
      decide

end Sys2Proof.Machine
end

section
/-! PROOFS. The family 60_exceptions: the two error conditions. First the illegal request words and the failing
initialization, then the outcomes of a host operation, then the obligations. -/

namespace Sys2Proof.Machine

/-! ### Illegal request words -/

/-- A request word with an unused `OP`, or INIT_CFG with `k` 6 or 7, is rejected, and the rejection takes BAD_REQUEST in
every state (R73, R147). -/
theorem decodeRequest_illegal {w : ReqWord}
    (h : 9 ≤ (reqField w 44 4).toNat ∨ (reqField w 44 4 = 1 ∧ 6 ≤ (reqField w 0 3).toNat)) :
    ∃ e, decodeRequest w = .error e ∧ ∀ s, rejectWord e s = .next (takeBadRequest s) := by
  rcases h with hop | ⟨hop, hk⟩
  · exact ⟨.illegalOp _, decodeRequest_illegalOp rfl hop, fun _ => rfl⟩
  · exact ⟨.illegalBiasCom _, (decodeRequest_initCfg hop).trans (if_neg (Nat.not_lt.2 hk)), fun _ => rfl⟩

/-- A step that takes a word which decodes to no operation rejects it in the accepting state (R148). -/
theorem step_of_decode_error {s : State} {p : Presented} {rest : List Presented} {e : DecodeError}
    (hr : s.requests = p :: rest) (hb : s.busy = false) (hd : decode p.word = .error e) :
    step s = release (rejectWord e (accept p rest s)) := by
  simp [step, hr, hb, hd]

/-- Taking BAD_REQUEST between raising and lowering BUSY leaves the request taken, its answers latched and the error in
`RESULT` (R147). -/
theorem release_takeBadRequest_accept (p : Presented) (rest : List Presented) {s : State} (hb : s.busy = false) :
    release (.next (takeBadRequest (accept p rest s))) =
      .next { s with requests := rest, readyIn := p.readyIn, cfgokIn := p.cfgokIn, result := .errBadRequest } := by
  simp [release, takeBadRequest, accept, hb]

/-! ### A failing initialization -/

/-- The failing answers read off the model's loop: a READY answer fails before any line is configured, a line after those
configured so far (R142). -/
theorem failedInitEvents_eq (ready cfgok : LineMap Bool) :
    failedInitEvents ready cfgok =
      if Line.inOrder.all ready.get then
        if (configureLines cfgok Line.inOrder).2 then none else some (configureLines cfgok Line.inOrder).1
      else some [] := by
  rcases ready with ⟨r₁, r₂, r₃⟩
  rcases cfgok with ⟨c₁, c₂, c₃⟩
  revert r₁ r₂ r₃ c₁ c₂ c₃
  decide

/-- An initialization that does not fail has all six answers true (R142). -/
theorem allAnswersTrue_of_failedInitEvents {s : State} (h : failedInitEvents s.readyIn s.cfgokIn = none) :
    AllAnswersTrue s := by
  rw [failedInitEvents_eq] at h
  split at h
  · rename_i hready
    split at h
    · rename_i hcfgok
      simp only [configureLines_inOrder, Bool.and_eq_true] at hcfgok
      obtain ⟨⟨hcs, hwr⟩, hdata⟩ := hcfgok
      exact ⟨hready, hcs, hwr, hdata⟩
    · cases h
  · cases h

/-- The `Cfg` events of a failing initialization: none, that of CS, or those of CS and WR (R142). -/
theorem failedInitEvents_cases {ready cfgok : LineMap Bool} {events : List PinEvent}
    (h : failedInitEvents ready cfgok = some events) :
    events = [] ∨ events = [.cfg .cs true] ∨ events = [.cfg .cs true, .cfg .wr true] := by
  unfold failedInitEvents at h
  split_ifs at h
  · cases h; exact .inl rfl
  · cases h; exact .inl rfl
  · cases h; exact .inr (.inl rfl)
  · cases h; exact .inr (.inr rfl)

/-- A failing initialization writes `CFG`, performs its `Cfg` events and raises DEVICE_NOT_READY (R142, R143). -/
theorem initialise_of_failedInitEvents (k : BiasCom) {s : State} {events : List PinEvent} (hst : s.st ≠ .ready)
    (h : failedInitEvents s.readyIn s.cfgokIn = some events) :
    initialise k s = .next (takeDeviceNotReady (performAll events { s with cfg := k })) := by
  rw [failedInitEvents_eq] at h
  rw [initialise, if_neg hst]
  split at h
  · rename_i hready
    split at h
    · cases h
    · rename_i hcfgok
      cases h
      exact (if_pos hready).trans (if_neg hcfgok)
  · rename_i hready
    cases h
    rw [if_neg hready]
    simp [performAll]

/-- Raising DEVICE_NOT_READY after such events gives the state of R143: the configured lines are outputs at level 1. -/
theorem takeDeviceNotReady_performAll (k : BiasCom) (s : State) {events : List PinEvent}
    (h : events = [] ∨ events = [.cfg .cs true] ∨ events = [.cfg .cs true, .cfg .wr true]) :
    takeDeviceNotReady (performAll events { s with cfg := k }) = afterFailedInit k events s := by
  rcases h with rfl | rfl | rfl
  · simp [takeDeviceNotReady, performAll, afterFailedInit]
  · simp [takeDeviceNotReady, performAll, afterFailedInit, Bus.observeAll, Bus.observe]
  · simp [takeDeviceNotReady, performAll, afterFailedInit, Bus.observeAll, Bus.observe]

/-- A failing initialization answers the state of R143. -/
theorem initialise_eq_afterFailedInit (k : BiasCom) {s : State} {events : List PinEvent} (hst : s.st ≠ .ready)
    (h : failedInitEvents s.readyIn s.cfgokIn = some events) :
    initialise k s = .next (afterFailedInit k events s) := by
  rw [initialise_of_failedInitEvents k hst h, takeDeviceNotReady_performAll k s (failedInitEvents_cases h)]

/-! ### The outcomes of a host operation -/

/-- An initialization that answers a next state completed, or took DEVICE_NOT_READY and received no frame (R93, R143). -/
theorem initialise_outcome {k : BiasCom} {s t : State} (h : initialise k s = .next t) :
    (t.st = .ready ∧ t.result = .ok) ∨
      (t.st = .failed ∧ t.result = .errDeviceNotReady ∧ t.bus.frames = s.bus.frames) := by
  obtain ⟨hst, -⟩ := initialise_next h
  cases hf : failedInitEvents s.readyIn s.cfgokIn with
  | none =>
    rw [initialise_of_allAnswersTrue k hst (allAnswersTrue_of_failedInitEvents hf)] at h
    cases h
    exact .inl ⟨rfl, rfl⟩
  | some events =>
    rw [initialise_eq_afterFailedInit k hst hf] at h
    cases h
    exact .inr ⟨rfl, rfl, rfl⟩

/-- A display operation that answers a next state completed (R97, R140). -/
theorem display_completed {i : Instr} (hi : IsDisplayOperation i) {s t : State} (h : exec i s = .next t) :
    t.st = .ready ∧ t.result = .ok := by
  obtain ⟨hready, -, hok, hdriver⟩ := display_next hi h
  exact ⟨hdriver.st.trans hready, hok⟩

/-- A host operation that answers a next state is an initialization that ran, an illegal INIT_CFG or a display operation
(R71, R147). -/
theorem hostOperation_next {i : Instr} (hi : IsHostOperation i) {s t : State} (h : exec i s = .next t) :
    (∃ k, ¬ IsDisplayOperation i ∧ initialise k s = .next t) ∨ t = takeBadRequest s ∨ IsDisplayOperation i := by
  cases i with
  | init => exact .inl ⟨_, not_false, h⟩
  | initCfg k =>
    by_cases hk : k.toNat < 6
    · exact .inl ⟨_, not_false, (exec_initCfg_of_legal hk s).symm.trans h⟩
    · cases (exec_initCfg_of_illegal hk s).symm.trans h
      exact .inr (.inl rfl)
  | clear | writeRaw | displayDigit | displayNumber | displayFloat | displayHex | testPattern =>
    exact .inr (.inr trivial)
  | _ => exact absurd hi id

/-! ### The obligations -/

/-- Settles O9: such a word decodes to an error whose rejection takes BAD_REQUEST, and so does INIT_CFG with such a `k`. -/
theorem illegalRequestTakesBadRequest : Obligations.IllegalRequestTakesBadRequest := by
  refine ⟨fun s p rest w hr hb hw hillegal => ?_, fun k s hk => exec_initCfg_of_illegal (Nat.not_lt.2 hk) s⟩
  obtain ⟨e, hdecode, hreject⟩ := decodeRequest_illegal hillegal
  have hd : decode p.word = .error e := by rw [hw, decode, hdecode]
  rw [step_of_decode_error hr hb hd, hreject, release_takeBadRequest_accept p rest hb]

/-- Settles O21, for INIT_CFG and for INIT alike by the state a failing initialization answers. -/
theorem failedInitTakesDeviceNotReady : Obligations.FailedInitTakesDeviceNotReady := by
  intro s events hst h
  refine ⟨fun k hk => ?_, initialise_eq_afterFailedInit _ hst h⟩
  rw [exec_initCfg_of_legal hk]
  exact initialise_eq_afterFailedInit _ hst h

/-- Settles O43: an initialization completes or takes DEVICE_NOT_READY, an illegal INIT_CFG takes BAD_REQUEST, and a display
operation completes. -/
theorem hostOperationOutcomes : Obligations.HostOperationOutcomes := by
  intro i s t hi h
  rcases hostOperation_next hi h with ⟨k, hnot, hinit⟩ | rfl | hdisplay
  · rcases initialise_outcome hinit with hcompleted | ⟨hst, hresult, hframes⟩
    · exact .inl hcompleted
    · exact .inr (.inl ⟨hst, hresult, hframes, hnot⟩)
  · exact .inr (.inr rfl)
  · exact .inl (display_completed hdisplay h)

end Sys2Proof.Machine
end

section
/-! PROOFS. The family 70_reset_and_hazards: how many pin events each operation performs, and the steps that run no
operation. First the lengths of frames, pictures and blocks, then the initialization and the step, then the obligations. -/

namespace Sys2Proof.Machine

/-! ### Lengths of frames and pictures -/

/-- A command frame is 70 pin events (R90). -/
theorem length_sendCommandEvents (c : BitVec 8) : (sendCommandEvents c).length = 70 := by
  simp [sendCommandEvents, length_sendBits, frameBegin, frameEnd]

/-- Write frames are 82 pin events each (R91). -/
theorem length_events_of_onlyWrites {sent : List Frame} (h : OnlyWrites sent) :
    (sent.flatMap frameEvents).length = 82 * sent.length := by
  induction sent with
  | nil => rfl
  | cons f rest ih =>
    obtain ⟨hf, hrest⟩ := List.forall_mem_cons.1 h
    cases f with
    | cmd c => exact absurd rfl (hf c)
    | write a d =>
      rw [List.flatMap_cons, List.length_append, ih hrest, List.length_cons, frameEvents, length_writeMemoryEvents]
      omega

/-- A picture from a position on writes two cells for each element within the display (R41, R120). -/
theorem length_pictureWrites (p : Nat) (items : List Item) :
    (pictureWrites p items).length = 2 * min (6 - p) items.length := by
  simp [pictureWrites_eq_map_zipIdx, length_pictureNibbles]

/-- A picture of at least six elements is twelve write frames (R131). -/
theorem length_events_picture {items : List Item} (h : 6 ≤ items.length) :
    ((pictureWrites 0 items).flatMap frameEvents).length = 984 := by
  rw [length_events_of_onlyWrites (onlyWrites_pictureWrites 0 items), length_pictureWrites, Nat.min_eq_left h]

/-- Each step of the test pattern is a picture and a delay (R129). -/
theorem length_events_testBlocks (digits : List Nat) :
    ((testBlocks digits).flatMap TraceBlock.events).length = 985 * digits.length := by
  have picture : ∀ d, ((stepFrames d).flatMap frameEvents).length = 984 := fun d => by
    rw [stepFrames_eq]
    exact length_events_picture (by simp [Config.maxDigits])
  rw [testBlocks_events]
  induction digits with
  | nil => rfl
  | cons d rest ih =>
    rw [List.flatMap_cons, List.length_append, ih, List.length_append, picture, List.length_singleton, List.length_cons]
    omega

/-- The power-up sequence is one wait and four command frames (R93). -/
theorem length_powerUp (k : BiasCom) : (powerUp k).length = 281 := by
  simp [powerUp, initCommands, length_sendCommandEvents]

/-! ### What an operation adds to PINTRACE -/

/-- PINTRACE grows by the events of the operation's blocks. -/
theorem length_pinTrace_of_exec {i : Instr} {s t : State} (h : exec i s = .next t) :
    t.pinTrace.length =
      s.pinTrace.length + ((opBlocks i s.readyIn s.cfgokIn).flatMap TraceBlock.events).length := by
  rw [(exec_drove h).trace, List.length_append]

/-- The same for an operation whose blocks are frames alone. -/
theorem length_pinTrace_of_frames {i : Instr} {s t : State} (h : exec i s = .next t) {sent : List Frame}
    (hblocks : opBlocks i s.readyIn s.cfgokIn = sent.map .frame) :
    t.pinTrace.length = s.pinTrace.length + (sent.flatMap frameEvents).length := by
  rw [length_pinTrace_of_exec h, hblocks, flatMap_frame_events]

/-- The same for an operation whose block is one frame. -/
theorem length_pinTrace_of_frame {i : Instr} {s t : State} (h : exec i s = .next t) {f : Frame}
    (hblocks : opBlocks i s.readyIn s.cfgokIn = [.frame f]) :
    t.pinTrace.length = s.pinTrace.length + (frameEvents f).length := by
  rw [length_pinTrace_of_frames h (sent := [f]) hblocks, List.flatMap_singleton]

/-- `send_command` adds one command frame (R90). -/
theorem length_pinTrace_of_sendCommand {c : BitVec 8} {s t : State}
    (h : exec (.sendCommand c) s = .next t) : t.pinTrace.length = s.pinTrace.length + 70 := by
  rw [length_pinTrace_of_frame h rfl, frameEvents, length_sendCommandEvents]

/-- DISPLAY_DIGIT adds two write frames at a position within the display, and none beyond it (R113). -/
theorem length_pinTrace_of_displayDigit {p v : BitVec 8} {dp : Bool} {s t : State}
    (h : exec (.displayDigit p v dp) s = .next t) :
    t.pinTrace.length = s.pinTrace.length + if p.toNat < 6 then 164 else 0 := by
  rw [length_pinTrace_of_frames h rfl]
  split
  · simp [patternWrites, frameEvents, length_writeMemoryEvents]
  · rfl

/-- A successful initialization adds its three `Cfg` events, the wait and four commands; a failing one adds at most the
`Cfg` events of CS and WR (R93, R142). -/
theorem length_pinTrace_of_initialise {k : BiasCom} {s t : State} (h : initialise k s = .next t) :
    (t.result = .ok → t.pinTrace.length = s.pinTrace.length + 284) ∧
      (t.result ≠ .ok → t.pinTrace.length ≤ s.pinTrace.length + 2) := by
  obtain ⟨hst, -⟩ := initialise_next h
  cases hf : failedInitEvents s.readyIn s.cfgokIn with
  | none =>
    rw [initialise_of_allAnswersTrue k hst (allAnswersTrue_of_failedInitEvents hf)] at h
    cases h
    refine ⟨fun _ => ?_, fun hne => absurd rfl hne⟩
    simp [length_powerUp]
  | some events =>
    rw [initialise_eq_afterFailedInit k hst hf] at h
    cases h
    refine ⟨fun hok => RequestResult.noConfusion hok, fun _ => ?_⟩
    rcases failedInitEvents_cases hf with rfl | rfl | rfl <;> simp [afterFailedInit]

/-! ### Steps that run no operation -/

/-- With no request presented the block is idle (log 10). -/
theorem step_of_no_request {s : State} (h : s.requests = []) : step s = .next s := by
  simp [step, h]

/-- A request presented while `BUSY = 1` is refused before its word is looked at (R163). -/
theorem step_of_busy {s : State} (h : s.requests ≠ []) (hb : s.busy = true) : step s = .refused .requestWhileBusy := by
  obtain ⟨p, rest, hr⟩ := List.exists_cons_of_ne_nil h
  simp [step, hr, hb]

/-! ### The obligations -/

/-- Settles O42: INIT_CFG with an illegal setting performs nothing, and every other operation performs the events of its
blocks, which are an initialization's, frames, or the steps of the test pattern. -/
theorem pinEventCounts : Obligations.PinEventCounts := by
  intro i s t h
  have picture : ∀ {items : List Item}, 6 ≤ items.length →
      opBlocks i s.readyIn s.cfgokIn = (pictureWrites 0 items).map .frame →
      t.pinTrace.length = s.pinTrace.length + 984 := fun hlen hblocks => by
    rw [length_pinTrace_of_frames h hblocks, length_events_picture hlen]
  cases i with
  | init => exact length_pinTrace_of_initialise h
  | initCfg k =>
    by_cases hk : k.toNat < 6
    · exact length_pinTrace_of_initialise ((exec_initCfg_of_legal hk s).symm.trans h)
    · cases (exec_initCfg_of_illegal hk s).symm.trans h
      exact ⟨fun hok => RequestResult.noConfusion hok, fun _ => Nat.le_add_right _ 2⟩
  | clear =>
    have sent := length_pinTrace_of_frames h (sent := zeroWrites (List.range 32)) rfl
    rwa [length_events_zeroWrites, List.length_range] at sent
  | writeRaw | writeMemory => exact (length_pinTrace_of_frame h rfl).trans (congrArg _ (length_writeMemoryEvents _ _))
  | displayDigit p v dp => exact length_pinTrace_of_displayDigit h
  | displayNumber v lz => exact picture (six_le_length_fillBlank _) rfl
  | displayFloat v d => exact picture (six_le_length_fillBlank _) rfl
  | displayHex v => exact picture (items := hexItems v) (by simp [hexItems]) rfl
  | testPattern =>
    have steps := length_pinTrace_of_exec h
    rwa [opBlocks, length_events_testBlocks, List.length_range] at steps
  | _ => exact length_pinTrace_of_sendCommand h

/-- Settles O7: the idle step, the busy port, and the rejection of a wire word that is no frame. -/
theorem stepIdleBusyAndMalformed : Obligations.StepIdleBusyAndMalformed :=
  ⟨fun _ => step_of_no_request, fun _ => step_of_busy, fun _ _ _ hr hb hd => step_of_decode_error hr hb hd⟩

end Sys2Proof.Machine
end
